-- ==== Sys2Proof/Word.lean ====
section
/-! DEFINITION. The block's word and value types (00_scope.md R8, R9, R12; 20_memory.md R62). -/

namespace Sys2Proof

/-- R8, R12 (WORD): an unsigned 64-bit word. -/
abbrev Word := BitVec 64

/-- R8, R9 (VALUE_BITS): a 512-bit value; `val(X)` is `X.toNat`. -/
abbrev Val512 := BitVec 512

/-- R12: the working dividend of DIV, "9 words (576 bits)". -/
abbrev Val576 := BitVec 576

/-- R62: one byte of the window, as a host that views the window as bytes sees it. -/
abbrev Byte := BitVec 8

end Sys2Proof
end

