-- ==== Sys2Proof/Syntax.lean ====
section
/-! DEFINITION. The commands of the block: one constructor per row of the opcode table (30_encoding.md R92). -/

namespace Sys2Proof

/-- R92: the seven legal commands. The 512-bit and 64-bit operands come from the latches (R91), so a command word
carries one operand only: SUBB's 1-bit BIN field. -/
inductive Instr where
  /-- R190: 512-bit by 512-bit division. -/
  | div
  /-- R170: 512-bit by 64-bit division. -/
  | divs
  /-- R121: logical shift left. -/
  | shl
  /-- R122: logical shift right. -/
  | shr
  /-- R124: compare with a zero-extended scalar. -/
  | cmps
  /-- R125: compare two 512-bit values. -/
  | cmp
  /-- R126: subtract with borrow, the borrow-in being the BIN field. -/
  | subb (bin : BitVec 1)
  deriving DecidableEq, Repr

end Sys2Proof
end

