-- ==== Sys2Proof/WellFormed.lean ====
section
/-! DEFINITION. Which command words are legal (30_encoding.md R93), written from R93's three conditions with plain
arithmetic and without the decoder's field functions, so that the two can be held against each other.

Every term of `Instr` is well formed: its one operand is a `BitVec 1`, which is R91's `bin ∈ {0, 1}`. -/

namespace Sys2Proof

/-- R93, first condition: OP ∈ {0x01, …, 0x07}. -/
def opDefined (c : Word) : Bool := decide (1 ≤ c.toNat % 256 ∧ c.toNat % 256 ≤ 7)

/-- R93, second condition: RSV = 0. -/
def rsvClear (c : Word) : Bool := decide (c.toNat / 512 = 0)

/-- R93, third condition: BIN = 0, or OP = 0x07. -/
def binAllowed (c : Word) : Bool := decide (c.toNat / 256 % 2 = 0 ∨ c.toNat % 256 = 7)

/-- R93: "A command word is legal exactly when all three hold". -/
def legalWord (c : Word) : Bool := opDefined c && rsvClear c && binAllowed c

end Sys2Proof
end

