-- ==== Sys2Proof/Decode.lean ====
section
/-! DEFINITION. The decoder of command words (30_encoding.md R90, R92, R94), total on all 2^64 words and rejecting by
name, and the encoder written from the same table. -/

namespace Sys2Proof

/-- Why a word is illegal: R93's list of illegal words, by name (log entry 18). -/
inductive DecodeError where
  /-- Any 1 in bits [63:9]. -/
  | reservedBits
  /-- BIN = 1 with OP ≠ 0x07. -/
  | binOutsideSubb
  /-- OP = 0x00 or OP ∈ {0x08, …, 0xFF}. -/
  | undefinedOp
  deriving DecidableEq, Repr

/-- R90: OP, bits [7:0]. -/
def fieldOp (c : Word) : BitVec 8 := c.extractLsb' 0 8

/-- R90: BIN, bit [8]. -/
def fieldBin (c : Word) : BitVec 1 := c.extractLsb' 8 1

/-- R90: RSV, bits [63:9]. -/
def fieldRsv (c : Word) : BitVec 55 := c.extractLsb' 9 55

/-- R94's `case c[7:0] of`, with SUBB's borrow-in from c[8]. -/
def decodeOp (op : Nat) (bin : BitVec 1) : Except DecodeError Instr :=
  match op with
  | 0x01 => .ok .div
  | 0x02 => .ok .divs
  | 0x03 => .ok .shl
  | 0x04 => .ok .shr
  | 0x05 => .ok .cmps
  | 0x06 => .ok .cmp
  | 0x07 => .ok (.subb bin)
  | _ => .error .undefinedOp

/-- R94: decode, the tests in R94's order. -/
def decode (c : Word) : Except DecodeError Instr :=
  if fieldRsv c ≠ 0 then .error .reservedBits
  else if fieldBin c = 1 ∧ fieldOp c ≠ 0x07 then .error .binOutsideSubb
  else decodeOp (fieldOp c).toNat (fieldBin c)

/-- R92: the OP value of a command. -/
def opOf : Instr → BitVec 8
  | .div => 0x01
  | .divs => 0x02
  | .shl => 0x03
  | .shr => 0x04
  | .cmps => 0x05
  | .cmp => 0x06
  | .subb _ => 0x07

/-- R90, R91: the BIN field of a command, 0 for every OP but SUBB's. -/
def binOf : Instr → BitVec 1
  | .subb bin => bin
  | .div | .divs | .shl | .shr | .cmps | .cmp => 0

/-- R90, R92: the command word: RSV = 0, then BIN, then OP. -/
def encode (i : Instr) : Word := (0 : BitVec 55) ++ binOf i ++ opOf i

/-- The command word whose bits the opcode table numbers `w`, on a row of `nbits` bits: bit 0 of the table is bit 0 of
the word (R90), and every bit at or above `nbits` is 0. -/
def tableWord (nbits w : Nat) : Word := BitVec.ofNat 64 (w % 2 ^ nbits)

/-- What the decoder reads from a table word; a row longer than one 64-bit word is no command (R95). -/
def decodeTableWord (nbits w : Nat) : Option Instr :=
  if nbits ≤ 64 then
    match decode (tableWord nbits w) with
    | .ok i => some i
    | .error _ => none
  else none

end Sys2Proof
end

