-- ==== Sys2Proof/Config.lean ====
section
/-! DEFINITION. The parameters of the block (00_scope.md R12) and the one the platform leaves OPEN (20_memory.md R60). -/

namespace Sys2Proof.Config

/-- R12 (NWORDS): words per 512-bit value. -/
def nWords : Nat := 8

/-- R12: the register-window size in bytes. -/
def windowBytes : Nat := 0x200

/-- R12: the most words the working dividend of DIV has. -/
def workWords : Nat := 9

/-- R60 (OPEN, log entry 2): the window slot at which the platform maps instance `k` of the block (R253).
No body: nothing can be proved of its value. -/
opaque windowSlot : Nat → Nat

/-- R60: BASE, "a multiple of 0x200", of instance `k`. -/
def base (k : Nat) : Nat := windowBytes * windowSlot k

end Sys2Proof.Config
end

