-- ==== Sys2Proof/Machine/State.lean ====
section
/-! DEFINITION. The state of the block (10_state.md R20 to R39), the environment that drives it (20_memory.md R63 to
R70, 70_reset_and_hazards.md R270), and the state after reset (R271). -/

namespace Sys2Proof.Machine

/-- R38: the sequencer's phase. -/
inductive Phase where
  | idle
  | busy
  deriving DecidableEq, Repr

/-- R31: the fields of STATUS. Bits [63:6] always read 0 and are not stored; `statusWord` (Flags.lean) is the word a
host reads. -/
structure Status where
  /-- bit 0: a command is in progress. -/
  busy : Bool
  /-- bit 1: the last accepted command has completed. -/
  done : Bool
  /-- bit 2: the last completed command ended with DivideByZero. -/
  dz : Bool
  /-- bit 3: the last completed command was an IllegalCommand. -/
  ill : Bool
  /-- bit 4: borrow-out of the last completed legal SUBB. -/
  borrow : Bool
  /-- bit 5: a CMD write was ignored because BUSY was 1. -/
  ovr : Bool
  deriving DecidableEq, Repr

/-- R29: the status code of a completion. -/
inductive Code where
  /-- 0. -/
  | success
  /-- −1 (R241). -/
  | divideByZero
  /-- −2 (R242). -/
  | illegalCommand
  deriving DecidableEq, Repr

/-- R67: `(writes, code) = Execute(...)`: the result registers a command writes, `none` where it leaves one unchanged,
and its status code. -/
structure Effect where
  q : Option Val512 := none
  r : Option Val512 := none
  rs : Option Word := none
  cmpr : Option Word := none
  borrow : Option Bool := none
  code : Code
  deriving DecidableEq, Repr

/-- R20, R61: the 512-bit registers of the window. -/
inductive Wide where
  | opa
  | opb
  | q
  | r
  deriving DecidableEq, Repr

/-- R20: the host-visible 64-bit registers, under the names of R97. -/
inductive Reg where
  /-- `X.w[i]` of a 512-bit register. -/
  | word (x : Wide) (i : Fin 8)
  | scl
  | shamt
  | cmd
  | status
  | rc
  | cmpr
  | rs
  deriving DecidableEq, Repr

/-- R63: one access the host may attempt: its byte offset in the window and its width in bytes. `HostRead(off)` is
`read off 8`, `HostWrite(off, v)` is `write off 8 v`. -/
inductive HostAccess where
  | read (off bytes : Nat)
  | write (off bytes : Nat) (v : Word)
  deriving DecidableEq, Repr

/-- R67, R70, R270: whose step is next in the single total order of host accesses, sequencer steps and resets. -/
inductive Event where
  /-- a host (or, serialized with it, another bus master: R72) performs an access. -/
  | host (a : HostAccess)
  /-- the sequencer's turn: it completes the command in progress, if there is one. -/
  | sequencer
  /-- the reset input is asserted. -/
  | reset
  deriving DecidableEq, Repr

/-- R70: what a host read returned, with the offset it read. -/
structure ReadRecord where
  off : Nat
  value : Word
  deriving DecidableEq, Repr

/-- Everything 10_state.md gives the block, and the environment's plain data. The division working state (R39) exists
only inside one completion and is `LongWork` in LongDivide.lean (log entry 4). -/
structure State where
  /-- R21 OPA. -/
  opa : Val512
  /-- R22 OPB. -/
  opb : Val512
  /-- R23 SCL. -/
  scl : Word
  /-- R24 SHAMT. -/
  shamt : Word
  /-- R30 CMD. -/
  cmd : Word
  /-- R31 STATUS. -/
  status : Status
  /-- R29 RC. -/
  rc : Word
  /-- R28 CMPR. -/
  cmpr : Word
  /-- R27 RS. -/
  rs : Word
  /-- R25 Q. -/
  q : Val512
  /-- R26 R. -/
  r : Val512
  /-- R38 PHASE. -/
  phase : Phase
  /-- R38 LCMD. -/
  lcmd : Word
  /-- R38 LA. -/
  la : Val512
  /-- R38 LB. -/
  lb : Val512
  /-- R38 LSCL. -/
  lscl : Word
  /-- R38 LSHAMT. -/
  lshamt : Word
  /-- The model's own (log entry 5): the events to come, first one next. -/
  script : List Event
  /-- The model's own (log entry 6): what the host's reads returned, newest first. -/
  reads : List ReadRecord
  deriving DecidableEq, Repr

/-- No fault exists: R240, "The block raises no traps and has no fault state". Nothing raises one, which is exact. -/
inductive Fault where
  deriving DecidableEq, Repr

/-- Why a step has no meaning. -/
inductive Refusal where
  /-- A command with no meaning yet; no arm of `exec` uses it. Safe. -/
  | notModelled (mnemonic : String)
  /-- Raised by a host access outside the interface (R63: not 64 bits wide, not at a multiple of 8, or at or beyond
  0x200), "A model refuses such an access". Safe: a real build may go on. -/
  | outsideInterface (off bytes : Nat)
  deriving DecidableEq, Repr

/-- R271: every host-visible register 0, PHASE idle. The latches, which R271 leaves unspecified, are 0 by DESIGN CHOICE
(log entry 1, unsafe). No event is pending and nothing has been read. -/
def State.reset : State where
  opa := 0
  opb := 0
  scl := 0
  shamt := 0
  cmd := 0
  status := ⟨false, false, false, false, false, false⟩
  rc := 0
  cmpr := 0
  rs := 0
  q := 0
  r := 0
  phase := .idle
  lcmd := 0
  la := 0
  lb := 0
  lscl := 0
  lshamt := 0
  script := []
  reads := []

end Sys2Proof.Machine
end

