-- ==== Sys2Proof/Machine/Flags.lean ====
section
/-! DEFINITION. STATUS as a word and its updates (10_state.md R31, R35), and the signed codes of RC and CMPR (R28, R29). -/

namespace Sys2Proof.Machine

/-- R31: STATUS as the host reads it: BUSY in bit 0 up to OVR in bit 5, bits [63:6] zero. -/
def statusWord (st : Status) : Word :=
  BitVec.ofNat 64 (st.busy.toNat + 2 * st.done.toNat + 4 * st.dz.toNat + 8 * st.ill.toNat + 16 * st.borrow.toNat
    + 32 * st.ovr.toNat)

/-- R66: what acceptance does to STATUS. DZ, ILL and BORROW stay. -/
def acceptStatus (st : Status) : Status := { st with busy := true, done := false, ovr := false }

/-- R68: what an ignored CMD write does to STATUS. -/
def overrunStatus (st : Status) : Status := { st with ovr := true }

/-- R31, R67: what a completion does to STATUS. DZ and ILL are written by every completion, BORROW only where the
command writes it, OVR stays. -/
def completeStatus (st : Status) (code : Code) (borrow : Option Bool) : Status where
  busy := false
  done := true
  dz := decide (code = .divideByZero)
  ill := decide (code = .illegalCommand)
  borrow := borrow.getD st.borrow
  ovr := st.ovr

/-- R29: the integer of a status code. -/
def codeInt : Code → Int
  | .success => 0
  | .divideByZero => -1
  | .illegalCommand => -2

/-- R29: `sext_64(code)`. -/
def codeWord (c : Code) : Word := BitVec.ofInt 64 (codeInt c)

/-- R124, R125: the three-way result of an unsigned compare. -/
def threeWay (a b : Nat) : Int := if a < b then -1 else if a = b then 0 else 1

/-- R28: `sext_64(c)`. -/
def cmprWord (c : Int) : Word := BitVec.ofInt 64 c

end Sys2Proof.Machine
end

