-- ==== Sys2Proof/Machine/Operands.lean ====
section
/-! DEFINITION. Words of wide values (00_scope.md R8, R10, R11), the register window (10_state.md R20, 20_memory.md R61,
R62, R64), and the bus address of a register (R60). -/

namespace Sys2Proof.Machine

/-- R8: `X.w[i]` is `X[64*i+63 : 64*i]`. -/
def wordOf {n : Nat} (x : BitVec n) (i : Nat) : Word := x.extractLsb' (64 * i) 64

/-- The ones of word `i` of a 512-bit value. -/
def wordMask (i : Nat) : Val512 := 0xFFFFFFFFFFFFFFFF#512 <<< (64 * i)

/-- X with word `i` replaced. -/
def setWord (x : Val512) (i : Nat) (v : Word) : Val512 :=
  (x &&& ~~~ wordMask i) ||| (v.setWidth 512 <<< (64 * i))

/-- R10: the significant width of the low `k` words. -/
def sigWidthBelow (x : Val512) : Nat → Nat
  | 0 => 0
  | k + 1 => if wordOf x k ≠ 0 then k + 1 else sigWidthBelow x k

/-- R10: `sw(X)`, the number of words up to and including the highest non-zero one. -/
def sigWidth (x : Val512) : Nat := sigWidthBelow x 8

/-- R11: leading zeros among the low `k` bits. -/
def leadingZeros (w : Word) : Nat → Nat
  | 0 => 0
  | k + 1 => if w.getLsbD k then 0 else 1 + leadingZeros w k

/-- R11: `clz64(w)`. -/
def clz64 (w : Word) : Nat := leadingZeros w 64

/-- R20: the window offset of a 512-bit register. -/
def wideOff : Wide → Nat
  | .opa => 0x000
  | .opb => 0x040
  | .q => 0x0C0
  | .r => 0x100

/-- R20, R61: the window offset of a register; word `i` of X is at `off(X) + 8*i`. -/
def regOff : Reg → Nat
  | .word x i => wideOff x + 8 * i.val
  | .scl => 0x080
  | .shamt => 0x088
  | .cmd => 0x090
  | .status => 0x098
  | .rc => 0x0A0
  | .cmpr => 0x0A8
  | .rs => 0x0B0

/-- The word index an aligned offset has within its block of eight words. -/
def wordIndex (off : Nat) : Fin 8 := ⟨off / 8 % 8, Nat.mod_lt _ (by decide)⟩

/-- R20: the 64-bit registers between the operand values and the results. -/
def narrowRegAt (off : Nat) : Option Reg :=
  match off with
  | 0x080 => some .scl
  | 0x088 => some .shamt
  | 0x090 => some .cmd
  | 0x098 => some .status
  | 0x0A0 => some .rc
  | 0x0A8 => some .cmpr
  | 0x0B0 => some .rs
  | _ => none

/-- R20: the register at an aligned offset of the window; `none` at a reserved offset (R64). -/
def regAt (off : Nat) : Option Reg :=
  match off / 64 with
  | 0 => some (.word .opa (wordIndex off))
  | 1 => some (.word .opb (wordIndex off))
  | 2 => narrowRegAt off
  | 3 => some (.word .q (wordIndex off))
  | 4 => some (.word .r (wordIndex off))
  | _ => none

/-- The 512-bit register named. -/
def wideReg (s : State) : Wide → Val512
  | .opa => s.opa
  | .opb => s.opb
  | .q => s.q
  | .r => s.r

/-- R20: what a register reads as. -/
def readReg (s : State) : Reg → Word
  | .word x i => wordOf (wideReg s x) i
  | .scl => s.scl
  | .shamt => s.shamt
  | .cmd => s.cmd
  | .status => statusWord s.status
  | .rc => s.rc
  | .cmpr => s.cmpr
  | .rs => s.rs

/-- R64, R70: what a read at an aligned offset returns; a reserved offset reads 0. -/
def windowWord (s : State) (off : Nat) : Word :=
  match regAt off with
  | some reg => readReg s reg
  | none => 0

/-- R62: the byte a host that views the window as bytes sees at byte offset `a`: little-endian within a register. -/
def windowByte (s : State) (a : Nat) : Byte := (windowWord s (a / 8 * 8)).extractLsb' (8 * (a % 8)) 8

/-- R60: the bus address of window offset `off` of instance `k`. -/
def busAddress (k off : Nat) : Nat := Config.base k + off

/-- R60: the window offset at bus address `addr`, if instance `k` is mapped there. -/
def busOffset (k addr : Nat) : Option Nat :=
  if Config.base k ≤ addr ∧ addr < Config.base k + Config.windowBytes then some (addr - Config.base k) else none

end Sys2Proof.Machine
end

