-- ==== Sys2Proof/Machine/Ops.lean ====
section
/-! DEFINITION. The shared operations of the block: acceptance (20_memory.md R66), overrun (R68), completion (R67), the
illegal command's completion (60_exceptions.md R242), host accesses (R63, R64, R65) and reset (70_reset_and_hazards.md
R270). The block takes no exception (R248): an error is a status code that a completion writes. -/

namespace Sys2Proof.Machine

/-- R66: a CMD write while idle: CMD takes the word, every latch takes its register, the phase becomes BUSY. -/
def accept (s : State) (c : Word) : State :=
  { s with
    cmd := c
    lcmd := c
    la := s.opa
    lb := s.opb
    lscl := s.scl
    lshamt := s.shamt
    phase := .busy
    status := acceptStatus s.status }

/-- R68: a CMD write while busy is lost and sets OVR. -/
def overrun (s : State) : State := { s with status := overrunStatus s.status }

/-- R30: a host write to CMD. -/
def writeCmd (s : State) (c : Word) : State :=
  match s.phase with
  | .idle => accept s c
  | .busy => overrun s

/-- R67: completion: every register write of the command, RC and the flags together, and the phase becomes IDLE. The
latches stay as they were (DESIGN CHOICE, log entry 8). -/
def complete (s : State) (e : Effect) : State :=
  { s with
    q := e.q.getD s.q
    r := e.r.getD s.r
    rs := e.rs.getD s.rs
    cmpr := e.cmpr.getD s.cmpr
    rc := codeWord e.code
    status := completeStatus s.status e.code e.borrow
    phase := .idle }

/-- R242: `Execute(ILLEGAL, ...)` writes no result register and leaves BORROW unchanged. -/
def illegalEffect : Effect where
  code := .illegalCommand

/-- R242: the completion of an illegal command word. -/
def completeIllegal (s : State) : State := complete s illegalEffect

/-- A host write to a word of a 512-bit register: OPA and OPB take it (R21, R22), Q and R ignore it (R64). -/
def writeWide (s : State) (x : Wide) (i : Nat) (v : Word) : State :=
  match x with
  | .opa => { s with opa := setWord s.opa i v }
  | .opb => { s with opb := setWord s.opb i v }
  | .q => s
  | .r => s

/-- R20: a host write to a register: the operand registers and CMD take it, the read-only ones ignore it (R64). -/
def writeReg (s : State) (reg : Reg) (v : Word) : State :=
  match reg with
  | .word x i => writeWide s x i v
  | .scl => { s with scl := v }
  | .shamt => { s with shamt := v }
  | .cmd => writeCmd s v
  | .status => s
  | .rc => s
  | .cmpr => s
  | .rs => s

/-- `HostWrite(off, v)`; a write to a reserved offset is ignored (R64). -/
def hostWrite (s : State) (off : Nat) (v : Word) : State :=
  match regAt off with
  | some reg => writeReg s reg v
  | none => s

/-- `HostRead(off)`: the value goes to the host, and no register changes (R65). -/
def hostRead (s : State) (off : Nat) : State := { s with reads := ⟨off, windowWord s off⟩ :: s.reads }

/-- R63: "a 64-bit read or write at an offset that is a multiple of 8", below 0x200. -/
def inInterface (off bytes : Nat) : Bool := decide (bytes = 8 ∧ off % 8 = 0 ∧ off < Config.windowBytes)

/-- R63: a host access, refused outside the interface (log entry 9). -/
def hostStep (s : State) (a : HostAccess) : Host.Outcome State Fault Refusal :=
  match a with
  | .read off bytes => if inInterface off bytes then .next (hostRead s off) else .refused (.outsideInterface off bytes)
  | .write off bytes v =>
    if inInterface off bytes then .next (hostWrite s off v) else .refused (.outsideInterface off bytes)

/-- R270, R272: reset, "whatever the block was doing". The environment's own data stays; the latches, which R271
leaves unspecified, take their values of `State.reset` (log entry 1). -/
def resetBlock (s : State) : State := { State.reset with script := s.script, reads := s.reads }

/-- The state with another list of events to come (the model's own field: log entry 5). -/
def withScript (s : State) (evs : List Event) : State := { s with script := evs }

end Sys2Proof.Machine
end

