-- ==== Sys2Proof/Machine/Compare.lean ====
section
/-! DEFINITION. CMPS and CMP (40_primitives.md R124, R125): the pseudocode is the meaning, CMP's word scan stands beside
it. -/

namespace Sys2Proof.Machine

/-- R125, word-level form: the first differing word, from word k − 1 down to 0, decides. -/
def scanBelow (a b : Val512) : Nat → Int
  | 0 => 0
  | k + 1 =>
    if wordOf a k = wordOf b k then scanBelow a b k
    else if (wordOf a k).toNat < (wordOf b k).toNat then -1 else 1

/-- R125, word-level form: scan i = 7 down to 0. -/
def scanCompare (a b : Val512) : Int := scanBelow a b 8

/-- R124: CMPS compares LA with LSCL zero-extended, writes CMPR, code 0. -/
def cmpsEffect (s : State) : Effect where
  cmpr := some (cmprWord (threeWay s.la.toNat s.lscl.toNat))
  code := .success

/-- R125: CMP compares LA with LB, writes CMPR, code 0. -/
def cmpEffect (s : State) : Effect where
  cmpr := some (cmprWord (threeWay s.la.toNat s.lb.toNat))
  code := .success

/-- R124: CMPS. -/
def execCmps (s : State) : Host.Outcome State Fault Refusal := .next (complete s (cmpsEffect s))

/-- R125: CMP. -/
def execCmp (s : State) : Host.Outcome State Fault Refusal := .next (complete s (cmpEffect s))

end Sys2Proof.Machine
end

