-- ==== Sys2Proof/Machine/Divide.lean ====
section
/-! DEFINITION. Single-word division (41_single_word_division.md R170 to R174): the per-word step, the loop, and DIVS. -/

namespace Sys2Proof.Machine

/-- R173: Div128by64 of N = {hi, lo} by d: floor quotient and remainder, each one word. -/
def div128by64 (hi lo d : Word) : Word × Word :=
  let n := hi.toNat * 2 ^ 64 + lo.toNat
  (BitVec.ofNat 64 (n / d.toNat), BitVec.ofNat 64 (n % d.toNat))

/-- R172: the loop, `k` words still to do; it carries R39's running remainder r and the quotient so far. -/
def divsLoop (x : Val512) (d : Word) : Nat → Val512 × Word → Val512 × Word
  | 0, qr => qr
  | i + 1, qr =>
    let step := div128by64 qr.2 (wordOf x i) d
    divsLoop x d i (setWord qr.1 i step.1, step.2)

/-- R172: DivsCore(X, d), word 7 down to word 0. -/
def divsCore (x : Val512) (d : Word) : Val512 × Word := divsLoop x d 8 (0, 0)

/-- R170, R171: DIVS writes Q and RS; a zero divisor gives zeros and code −1. -/
def divsEffect (s : State) : Effect :=
  if s.lscl = 0 then { q := some 0, rs := some 0, code := .divideByZero }
  else { q := some (divsCore s.la s.lscl).1, rs := some (divsCore s.la s.lscl).2, code := .success }

/-- R170: DIVS. -/
def execDivs (s : State) : Host.Outcome State Fault Refusal := .next (complete s (divsEffect s))

end Sys2Proof.Machine
end

