-- ==== Sys2Proof/Machine/LongDivide.lean ====
section
/-! DEFINITION. Multi-word division (42_multi_word_division.md R190 to R203): Algorithm D step by step, and DIV.
Integers of the pseudocode are unbounded, as 00_scope.md section 6 says; a store into a register truncates. -/

namespace Sys2Proof.Machine

/-- R39: what the digit loop changes: the quotient so far and the working dividend u. -/
structure LongWork where
  q : Val512
  u : Val576
  deriving DecidableEq, Repr

/-- R195: f = clz64 of the divisor's most significant significant word. -/
def normShift (b : Val512) : Nat := clz64 (wordOf b (sigWidth b - 1))

/-- R195: v, the words of B << f. -/
def normDivisor (b : Val512) : Val512 := b <<< normShift b

/-- R195: u, the words of A << f; "u has 9 words (576 bits)". -/
def normDividend (a : Val512) (f : Nat) : Val576 := a.setWidth 576 <<< f

/-- R197: Estimate(j): the capped trial digit and its trial remainder, from the top two window words and v[n-1]. -/
def estimate (num vTop : Nat) : Nat × Nat :=
  let qHat := min (num / vTop) (2 ^ 64 - 1)
  (qHat, num - qHat * vTop)

/-- R198: the loop test of Refine(j), on v[n-2] and u[j+n-2]. -/
def refineTest (vNext uNext : Nat) (p : Nat × Nat) : Bool := decide (p.2 < 2 ^ 64 ∧ p.1 * vNext > p.2 * 2 ^ 64 + uNext)

/-- R198: Refine(j), at most `fuel` times round the loop. -/
def refine (vTop vNext uNext : Nat) : Nat → Nat × Nat → Nat × Nat
  | 0, p => p
  | fuel + 1, p =>
    if refineTest vNext uNext p then refine vTop vNext uNext fuel (p.1 - 1, p.2 + vTop) else p

/-- R198: "The loop body runs at most twice" (log entry 16). -/
def refineFuel : Nat := 2

/-- val(u[j..j+n]), the window of n + 1 words at offset j (R199). -/
def window (u : Val576) (j n : Nat) : Nat := (u.toNat >>> (64 * j)) % 2 ^ (64 * (n + 1))

/-- R199: t = val(u[j..j+n]) − qHat · val(v). -/
def mulSub (win qHat v : Nat) : Int := (win : Int) - qHat * v

/-- R200: one add-back: while the subtraction borrows, decrement qHat and add v back. -/
def addBack (v : Nat) (p : Nat × Int) : Nat × Int := if p.2 < 0 then (p.1 - 1, p.2 + v) else p

/-- R200: Correct(qHat, t): the first add-back and the defensive second. -/
def correct (v : Nat) (p : Nat × Int) : Nat × Int := addBack v (addBack v p)

/-- val of a list of words, least significant first (R8). -/
def wordsVal : List Word → Nat
  | [] => 0
  | w :: ws => w.toNat + 2 ^ 64 * wordsVal ws

/-- R199, word-level form: the words of v, the window words u[j..j+n], the carry of the products and the borrow of the
subtraction so far. -/
def mulSubWords (qHat : Word) : List Word → List Word → Nat → Bool → List Word × Bool
  | v :: vs, u :: us, carry, borrow =>
    let p := qHat.toNat * v.toNat + carry
    let s : Int := (u.toNat : Int) - (p % 2 ^ 64 : Nat) - borrow.toNat
    let rest := mulSubWords qHat vs us (p / 2 ^ 64) (decide (s < 0))
    (BitVec.ofInt 64 s :: rest.1, rest.2)
  | [], u :: _, carry, borrow =>
    let s : Int := (u.toNat : Int) - carry - borrow.toNat
    ([BitVec.ofInt 64 s], decide (s < 0))
  | _, [], _, borrow => ([], borrow)

/-- R200, word-level add-back: v added into the window with a carry chain; the second value is the carry out of word
j + n. -/
def addBackWords : List Word → List Word → Nat → List Word × Nat
  | v :: vs, u :: us, carry =>
    let s := u.toNat + v.toNat + carry
    let rest := addBackWords vs us (s / 2 ^ 64)
    (BitVec.ofNat 64 s :: rest.1, rest.2)
  | [], u :: _, carry =>
    let s := u.toNat + carry
    ([BitVec.ofNat 64 s], s / 2 ^ 64)
  | _, [], carry => ([], carry)

/-- R201: u with u[j..j+n] replaced by the n + 1 words of t. -/
def setWindow (u : Val576) (j n : Nat) (t : Int) : Val576 :=
  BitVec.ofNat 576 (u.toNat % 2 ^ (64 * j) + (t % 2 ^ (64 * (n + 1))).toNat * 2 ^ (64 * j)
    + u.toNat / 2 ^ (64 * (j + n + 1)) * 2 ^ (64 * (j + n + 1)))

/-- R197, R198: the trial digit of position j after refinement. -/
def trialDigit (u : Val576) (v : Val512) (n j : Nat) : Nat × Nat :=
  let vTop := (wordOf v (n - 1)).toNat
  let num := (wordOf u (j + n)).toNat * 2 ^ 64 + (wordOf u (j + n - 1)).toNat
  refine vTop (wordOf v (n - 2)).toNat (wordOf u (j + n - 2)).toNat refineFuel (estimate num vTop)

/-- R196: one round of the digit loop at position j. -/
def digitStep (v : Val512) (n j : Nat) (w : LongWork) : LongWork :=
  let qHat := (trialDigit w.u v n j).1
  let p := correct v.toNat (qHat, mulSub (window w.u j n) qHat v.toNat)
  { q := setWord w.q j (BitVec.ofNat 64 p.1), u := setWindow w.u j n p.2 }

/-- R196: the digit loop, positions k − 1 down to 0. -/
def digitLoop (v : Val512) (n : Nat) : Nat → LongWork → LongWork
  | 0, w => w
  | j + 1, w => digitLoop v n j (digitStep v n j w)

/-- R202: Denormalize(u, n, f) = val(u[0..n-1]) >> f. -/
def denormalize (u : Val576) (n f : Nat) : Val512 := BitVec.ofNat 512 ((u.toNat % 2 ^ (64 * n)) >>> f)

/-- R195, R196: the state of the loop after its last position. -/
def algDWork (a b : Val512) : LongWork :=
  digitLoop (normDivisor b) (sigWidth b) (sigWidth a - sigWidth b + 1) ⟨0, normDividend a (normShift b)⟩

/-- R196: AlgD(LA, LB). -/
def algD (a b : Val512) : Val512 × Val512 :=
  ((algDWork a b).q, denormalize (algDWork a b).u (sigWidth b) (normShift b))

/-- R190, the cases in R190's order for a divisor that is not zero: R193, R194, then R195 to R202. -/
def longDivide (a b : Val512) : Val512 × Val512 :=
  if a.toNat < b.toNat then (0, a)
  else if sigWidth b = 1 then
    ((divsCore a (wordOf b 0)).1, (divsCore a (wordOf b 0)).2.setWidth 512)
  else algD a b

/-- R190, R192: DIV writes Q and R; a zero divisor gives zeros and code −1. -/
def divEffect (s : State) : Effect :=
  if s.lb = 0 then { q := some 0, r := some 0, code := .divideByZero }
  else { q := some (longDivide s.la s.lb).1, r := some (longDivide s.la s.lb).2, code := .success }

/-- R190: DIV. -/
def execDiv (s : State) : Host.Outcome State Fault Refusal := .next (complete s (divEffect s))

end Sys2Proof.Machine
end

