-- ==== Sys2Proof/Machine/Shift.lean ====
section
/-! DEFINITION. SHL and SHR (40_primitives.md R121, R122): the pseudocode is the meaning, the word-level forms stand
beside it. -/

namespace Sys2Proof.Machine

/-- R121: `if n >= 512 then 0 else trunc_512(A << n)`. -/
def shlValue (a : Val512) (n : Nat) : Val512 := if n ≥ 512 then 0 else BitVec.ofNat 512 (a.toNat <<< n)

/-- R122: `if n >= 512 then 0 else A >> n`. -/
def shrValue (a : Val512) (n : Nat) : Val512 := if n ≥ 512 then 0 else BitVec.ofNat 512 (a.toNat >>> n)

/-- R121, R122: `A.w[k]`, 0 for k < 0 and for k > 7. -/
def wordOrZero (a : Val512) (k : Int) : Word := if 0 ≤ k ∧ k ≤ 7 then wordOf a k.toNat else 0

/-- R121, word-level form: word `i` of the shifted value, for n < 512. -/
def shlWord (a : Val512) (n i : Nat) : Word :=
  let s := n / 64
  let t := n % 64
  (wordOrZero a ((i : Int) - s) <<< t) ||| (if t = 0 then 0 else wordOrZero a ((i : Int) - s - 1) >>> (64 - t))

/-- R122, word-level form: word `i` of the shifted value, for n < 512. -/
def shrWord (a : Val512) (n i : Nat) : Word :=
  let s := n / 64
  let t := n % 64
  (wordOrZero a ((i : Int) + s) >>> t) ||| (if t = 0 then 0 else wordOrZero a ((i : Int) + s + 1) <<< (64 - t))

/-- R121: SHL writes Q, code 0. -/
def shlEffect (s : State) : Effect where
  q := some (shlValue s.la s.lshamt.toNat)
  code := .success

/-- R122: SHR writes Q, code 0. -/
def shrEffect (s : State) : Effect where
  q := some (shrValue s.la s.lshamt.toNat)
  code := .success

/-- R121: SHL. -/
def execShl (s : State) : Host.Outcome State Fault Refusal := .next (complete s (shlEffect s))

/-- R122: SHR. -/
def execShr (s : State) : Host.Outcome State Fault Refusal := .next (complete s (shrEffect s))

end Sys2Proof.Machine
end

