-- ==== Sys2Proof/Machine/Subtract.lean ====
section
/-! DEFINITION. SUBB (40_primitives.md R126), with the borrow chain of R127 beside it. -/

namespace Sys2Proof.Machine

/-- R126: `d = A - B - bin`, an exact integer. -/
def subbDiff (a b : Val512) (bin : BitVec 1) : Int := (a.toNat : Int) - b.toNat - bin.toNat

/-- R126: SUBB writes Q with d mod 2^512 and BORROW with d < 0, code 0. -/
def subbEffect (bin : BitVec 1) (s : State) : Effect where
  q := some (BitVec.ofInt 512 (subbDiff s.la s.lb bin))
  borrow := some (decide (subbDiff s.la s.lb bin < 0))
  code := .success

/-- R127: one word of the chain: `t = a - b - borrow`, the word t mod 2^64, and the borrow t < 0. -/
def subWord (a b : Word) (borrow : Bool) : Word × Bool :=
  let t : Int := (a.toNat : Int) - b.toNat - borrow.toNat
  (BitVec.ofInt 64 t, decide (t < 0))

/-- R127: the chain over two lists of words, least significant first. -/
def subChain : List Word → List Word → Bool → List Word × Bool
  | a :: as, b :: bs, borrow =>
    let here := subWord a b borrow
    let rest := subChain as bs here.2
    (here.1 :: rest.1, rest.2)
  | _, _, borrow => ([], borrow)

/-- R8: the words of a value, least significant first. -/
def wordsOf (x : Val512) : List Word := (List.range 8).map (wordOf x)

/-- R126: SUBB. -/
def execSubb (bin : BitVec 1) (s : State) : Host.Outcome State Fault Refusal := .next (complete s (subbEffect bin s))

end Sys2Proof.Machine
end

