-- ==== Sys2Proof/Machine/Dispatch.lean ====
section
/-! DEFINITION. One arm per command: `Execute(decode(LCMD), …)` and the completion that applies it (20_memory.md R67). -/

namespace Sys2Proof.Machine

-- R92: the opcode map.
def exec (i : Instr) (s : State) : Host.Outcome State Fault Refusal :=
  match i with
  | .div => Sys2Proof.Machine.execDiv s
  | .divs => Sys2Proof.Machine.execDivs s
  | .shl => Sys2Proof.Machine.execShl s
  | .shr => Sys2Proof.Machine.execShr s
  | .cmps => Sys2Proof.Machine.execCmps s
  | .cmp => Sys2Proof.Machine.execCmp s
  | .subb bin => Sys2Proof.Machine.execSubb bin s

end Sys2Proof.Machine
end

