-- ==== Sys2Proof/Machine/Agents.lean ====
section
/-! DEFINITION. The two agents of the block and its reset input (20_memory.md section 3, 70_reset_and_hazards.md R270). -/

namespace Sys2Proof.Machine

/-- R67, R242: completion of the command in LCMD: decode it, then its meaning, or IllegalCommand. -/
def completeCommand (s : State) : Host.Outcome State Fault Refusal :=
  match decode s.lcmd with
  | .ok i => exec i s
  | .error _ => .next (completeIllegal s)

/-- R67: the sequencer's turn. While BUSY it has exactly one step, completion; while IDLE it has none, and the turn
passes (log entry 5). -/
def sequencerTurn (s : State) : Host.Outcome State Fault Refusal :=
  match s.phase with
  | .idle => .next s
  | .busy => completeCommand s

/-- R70: one event of the total order. -/
def perform (s : State) (ev : Event) : Host.Outcome State Fault Refusal :=
  match ev with
  | .host a => hostStep s a
  | .sequencer => sequencerTurn s
  | .reset => .next (resetBlock s)

/-- The next event of the script; with none left the sequencer moves, which is R67's weak fairness (R284: "the
completion step is still owed"), and an idle block stays as it is (R255; log entry 5). -/
def stepScript (s : State) : Host.Outcome State Fault Refusal :=
  match s.script with
  | [] => sequencerTurn s
  | ev :: rest => perform (withScript s rest) ev

/-- The state in which the command word of a table row has just been accepted (R66: it is latched with its operands),
and the sequencer moves next (log entry 7). -/
def placeCommand (s : State) (c : Word) : State := withScript (accept s c) (.sequencer :: s.script)

end Sys2Proof.Machine
end

