-- ==== Sys2Proof/Machine/Step.lean ====
section
/-! DEFINITION. One step of the machine: one event of the single total order of 20_memory.md R70. -/

namespace Sys2Proof.Machine

/-- R70: one event. -/
def step (s : State) : Host.Outcome State Fault Refusal := stepScript s

/-- The state whose very next step completes the command word that the opcode table numbers `w` (log entry 7): the word
is in LCMD as R66 leaves it, and the sequencer moves next. -/
def State.withFetchWord (s : State) (nbits w : Nat) : State := placeCommand s (tableWord nbits w)

end Sys2Proof.Machine
end

