-- ==== Sys2Proof/Machine/HostAsm.lean ====
section
/-! DEFINITION. The host's assembler statements and pseudo-instructions (30_encoding.md R97, R98) as the host accesses
they stand for. Labels, `goto` and `if` are "not a host action, and the block never sees it" (R97), so they have no
place here; where an expansion depends on values the host has read, those values are its arguments. -/

namespace Sys2Proof.Machine

/-- R97: one statement, which is one host action. -/
inductive Stmt where
  /-- `wr REG, imm64`. -/
  | wr (reg : Reg) (imm : Word)
  /-- `rd REG`. -/
  | rd (reg : Reg)
  /-- `div`, `divs`, `shl`, `shr`, `cmps`, `cmp`, `subb 0`, `subb 1`. -/
  | op (i : Instr)
  /-- `cmd imm64`: a raw word, which may be illegal. -/
  | raw (imm : Word)
  deriving DecidableEq, Repr

/-- R97: the host access a statement stands for. -/
def stmtAccess : Stmt → HostAccess
  | .wr reg imm => .write (regOff reg) 8 imm
  | .rd reg => .read (regOff reg) 8
  | .op i => .write (regOff .cmd) 8 (encode i)
  | .raw imm => .write (regOff .cmd) 8 imm

/-- The eight word indices, in word order. -/
def wordIndices : List (Fin 8) := [0, 1, 2, 3, 4, 5, 6, 7]

/-- R98: `ld OPA, imm512` / `ld OPB, imm512`: eight writes in word order. -/
def ldStmts (x : Wide) (imm : Val512) : List Stmt := wordIndices.map fun i => .wr (.word x i) (wordOf imm i)

/-- R98: `sub` is `subb 0`. -/
def subStmts : List Stmt := [.op (.subb 0)]

/-- R98: the value a `wait` loop stops at: `(value & 2) == 0` goes round again. -/
def waitStops (value : Word) : Bool := decide (value &&& 2 ≠ 0)

/-- R98: a `wait` that went round `again` times before it saw DONE = 1. -/
def waitStmts (again : Nat) : List Stmt := List.replicate (again + 1) (.rd .status)

/-- R98: `st Q` / `st R`: the eight words. -/
def stStmts (x : Wide) : List Stmt := wordIndices.map fun i => .rd (.word x i)

/-- R98: `mov DST, SRC`: read a word, then write the value read; `seen` is the value the eight reads gave. -/
def movStmts (dst src : Wide) (seen : Val512) : List Stmt :=
  wordIndices.flatMap fun i => [.rd (.word src i), .wr (.word dst i) (wordOf seen i)]

/-- R98: `mov SCL, RS`; `seen` is the value the read gave. -/
def movSclStmts (seen : Word) : List Stmt := [.rd .rs, .wr .scl seen]

/-- The events of a list of statements, when nothing falls between them. -/
def stmtEvents (p : List Stmt) : List Event := p.map fun st => .host (stmtAccess st)

end Sys2Proof.Machine
end

