-- ==== Sys2Proof/Machine/Platform.lean ====
section
/-! DEFINITION. Several instances of the block on one platform (60_exceptions.md R253): each has its own state. -/

namespace Sys2Proof.Machine

/-- R253: instance `k` of the platform takes one step; a number no instance has changes nothing. -/
def platformStep (p : List State) (k : Nat) : Host.Outcome (List State) Fault Refusal :=
  match p[k]? with
  | none => .next p
  | some s =>
    match step s with
    | .next t => .next (p.set k t)
    | .fault f => .fault f
    | .refused r => .refused r

end Sys2Proof.Machine
end

