-- ==== Sys2Proof/Safety.lean ====
section
/-! DEFINITION. The terms the statements about the block are made in: what Execute gives (20_memory.md R67), what every
completion leaves, and the invariant of the block (10_state.md R28, R32, R33, R34, R38). -/

namespace Sys2Proof.Machine

/-- R67: `Execute` of a decoded command over the latches. -/
def effectOf (i : Instr) (s : State) : Effect :=
  match i with
  | .div => divEffect s
  | .divs => divsEffect s
  | .shl => shlEffect s
  | .shr => shrEffect s
  | .cmps => cmpsEffect s
  | .cmp => cmpEffect s
  | .subb bin => subbEffect bin s

/-- R67: `Execute(decode(LCMD), ...)`, with R242 for an illegal word. -/
def latchedEffect (s : State) : Effect :=
  match decode s.lcmd with
  | .ok i => effectOf i s
  | .error _ => illegalEffect

/-- R67: what every completion from `s` leaves in `t`: RC, DZ, ILL, the lifecycle bits and the phase; OVR stays; the
environment's own data stays. -/
def CompletedWith (rc : Word) (dz ill : Bool) (s t : State) : Prop :=
  t.rc = rc ∧ t.status.dz = dz ∧ t.status.ill = ill ∧ t.status.busy = false ∧ t.status.done = true ∧
    t.status.ovr = s.status.ovr ∧ t.phase = .idle ∧ t.script = s.script ∧ t.reads = s.reads

/-- R7: every host-visible register reads as before, but those of `written`; RC and STATUS are the completion's. -/
def OthersKept (written : List Reg) (s t : State) : Prop :=
  ∀ reg, reg ∉ written → reg ≠ .rc → reg ≠ .status → readReg t reg = readReg s reg

/-- The eight words of a 512-bit register. -/
def wideRegs (x : Wide) : List Reg := wordIndices.map (.word x)

/-- R92, the "writes" column: the registers of the window that a command writes besides RC and STATUS. -/
def writtenRegs : Instr → List Reg
  | .div => wideRegs .q ++ wideRegs .r
  | .divs => .rs :: wideRegs .q
  | .shl | .shr | .subb _ => wideRegs .q
  | .cmps | .cmp => [.cmpr]

/-- R21 to R24: the operand registers, which only the host writes. -/
def operandRegs : List Reg := .scl :: .shamt :: (wideRegs .opa ++ wideRegs .opb)

/-- R25 to R29 and R31: what a completion may write. -/
def resultRegs : List Reg := .status :: .rc :: .cmpr :: .rs :: (wideRegs .q ++ wideRegs .r)

/-- R64: the reserved offsets. -/
def ReservedOffset (off : Nat) : Prop := off = 0x0B8 ∨ (0x140 ≤ off ∧ off ≤ 0x1F8 ∧ off % 8 = 0)

/-- R64: the offsets of STATUS, RC, CMPR, RS, Q.w[i] and R.w[i]. -/
def ReadOnlyOffset (off : Nat) : Prop :=
  off = 0x098 ∨ off = 0x0A0 ∨ off = 0x0A8 ∨ off = 0x0B0 ∨ (0x0C0 ≤ off ∧ off < 0x140 ∧ off % 8 = 0)

/-- R63: an event that is not a host access outside the interface. -/
def interfaceEvent : Event → Bool
  | .host (.read off bytes) => inInterface off bytes
  | .host (.write off bytes _) => inInterface off bytes
  | .sequencer => true
  | .reset => true

/-- R71: an event of the interface that is neither a write to CMD nor a reset. -/
def noCommandEvent : Event → Bool
  | .host (.read off bytes) => inInterface off bytes
  | .host (.write off bytes _) => inInterface off bytes && decide (off ≠ 0x090)
  | .sequencer => true
  | .reset => false

/-- It is the sequencer's turn and a command is in progress, so the next step is its completion (R67). -/
def Completing (s : State) : Prop := s.phase = .busy ∧ (s.script = [] ∨ ∃ rest, s.script = .sequencer :: rest)

/-- R38, R75: the command word and the operands latched at acceptance are the same in `t` as in `s`. -/
def LatchesKept (s t : State) : Prop :=
  t.lcmd = s.lcmd ∧ t.la = s.la ∧ t.lb = s.lb ∧ t.lscl = s.lscl ∧ t.lshamt = s.lshamt

/-- The next step is the reset input (R270). -/
def Resetting (s : State) : Prop := ∃ rest, s.script = .reset :: rest

/-- The next step is a host write of `v` to the register `reg`. -/
def HostWriting (s : State) (reg : Reg) (v : Word) : Prop := ∃ rest, s.script = .host (.write (regOff reg) 8 v) :: rest

/-- R32: BUSY reads 1 exactly while the phase is BUSY. -/
def BusyIsPhase (s : State) : Prop := s.status.busy = true ↔ s.phase = .busy

/-- R33: DONE and BUSY are never both 1. -/
def NotBusyAndDone (s : State) : Prop := ¬ (s.status.busy = true ∧ s.status.done = true)

/-- R34: RC agrees with DZ and ILL, which are never both 1. -/
def CodesAgree (s : State) : Prop :=
  (s.rc = 0 ↔ s.status.dz = false ∧ s.status.ill = false) ∧ (s.rc = 0xFFFFFFFFFFFFFFFF ↔ s.status.dz = true) ∧
    (s.rc = 0xFFFFFFFFFFFFFFFE ↔ s.status.ill = true) ∧ ¬ (s.status.dz = true ∧ s.status.ill = true)

/-- R28: "No other value is ever stored in CMPR" than −1, 0 and +1. -/
def CmprIsCode (s : State) : Prop := s.cmpr = 0xFFFFFFFFFFFFFFFF ∨ s.cmpr = 0 ∨ s.cmpr = 1

/-- R30, R38, R75: while a command is in progress LCMD is the word CMD reads as. -/
def LatchedIsCmd (s : State) : Prop := s.phase = .busy → s.lcmd = s.cmd

/-- R248: once a command has completed, ILL says whether the accepted word was illegal, and DZ is 1 only after DIV or
DIVS. -/
def StatusDescribesCmd (s : State) : Prop :=
  s.status.done = true →
    ((s.status.ill = true ↔ ∃ e, decode s.cmd = .error e) ∧
      (s.status.dz = true → decode s.cmd = .ok .div ∨ decode s.cmd = .ok .divs))

/-- R271, R33: with neither BUSY nor DONE no command has been accepted since reset, so CMD, RC, the result registers and
every flag read 0. -/
def FreshIsClear (s : State) : Prop :=
  s.status.busy = false → s.status.done = false →
    s.cmd = 0 ∧ s.rc = 0 ∧ s.cmpr = 0 ∧ s.rs = 0 ∧ s.q = 0 ∧ s.r = 0 ∧ statusWord s.status = 0

/-- The invariant of the block. -/
structure Inv (s : State) : Prop where
  busyIsPhase : BusyIsPhase s
  notBusyAndDone : NotBusyAndDone s
  codesAgree : CodesAgree s
  cmprIsCode : CmprIsCode s
  latchedIsCmd : LatchedIsCmd s
  statusDescribesCmd : StatusDescribesCmd s
  freshIsClear : FreshIsClear s

/-- R177: DIVS `k` times over, the host copying Q into OPA and issuing DIVS again each time (R98 `mov OPA, Q`). -/
def repeatDivs : Nat → State → Host.Outcome State Fault Refusal
  | 0, s => .next s
  | k + 1, s =>
    match execDivs s with
    | .next t => repeatDivs k (accept { t with opa := t.q } (encode .divs))
    | .fault f => .fault f
    | .refused r => .refused r

end Sys2Proof.Machine
end

