-- ==== Sys2Proof/Certificates/Slice0/Obligations.lean ====
section
/-! DEFINITION. What is stated of the block, rule by rule. `A`, `B`, `S`, `n` of the spec are `s.la.toNat`,
`s.lb.toNat`, `s.lscl.toNat`, `s.lshamt.toNat` of the state `s` a command completes in. Clauses on `script` and `reads` are about the
model's own fields (log entries 5 and 6). -/

open Sys2Proof Sys2Proof.Machine

/-! ## Encoding -/

/-- R90, R92, R94: decode of encode is the command, and a word that decodes is the word of its command: no two words mean
one command, and no bit of a word is dropped. -/
def Obligations.DecodeInvertsEncode : Prop :=
  (∀ i : Instr, decode (encode i) = .ok i) ∧ ∀ (c : Word) (i : Instr), decode c = .ok i → encode i = c

/-- R93: a word is legal exactly when OP ∈ 0x01..0x07, RSV = 0, and BIN = 0 or OP = 0x07. -/
def Obligations.DecodeAcceptsExactlyLegalWords : Prop :=
  ∀ c : Word, (∃ i, decode c = .ok i) ↔
    (1 ≤ c.toNat % 2 ^ 8 ∧ c.toNat % 2 ^ 8 ≤ 7) ∧ c.toNat / 2 ^ 9 = 0 ∧
      (c.toNat / 2 ^ 8 % 2 = 0 ∨ c.toNat % 2 ^ 8 = 7)

/-- R92's table of command words, and illegal words of 95_test_vectors.md section 2.7. -/
def Obligations.CommandWordsDecode : Prop :=
  decode 0x1 = .ok .div ∧ decode 0x2 = .ok .divs ∧ decode 0x3 = .ok .shl ∧ decode 0x4 = .ok .shr ∧
    decode 0x5 = .ok .cmps ∧ decode 0x6 = .ok .cmp ∧ decode 0x7 = .ok (.subb 0) ∧ decode 0x107 = .ok (.subb 1) ∧
    decode 0x0 = .error .undefinedOp ∧ decode 0x8 = .error .undefinedOp ∧ decode 0xFF = .error .undefinedOp ∧
    decode 0x101 = .error .binOutsideSubb ∧ decode 0x203 = .error .reservedBits ∧
    decode 0x8000000000000002 = .error .reservedBits

/-! ## A step runs the decoded command -/

/-- R67: while BUSY, on the sequencer's turn (its event, or no event left), the step is `exec` of the command LCMD
decodes to, with that event taken off the script and nothing else added. -/
def Obligations.StepRunsTheLatchedCommand : Prop :=
  ∀ (s : State) (i : Instr), s.phase = .busy → decode s.lcmd = .ok i →
    (s.script = [] → step s = exec i s) ∧
      ∀ rest, s.script = .sequencer :: rest → step s = exec i (withScript s rest)

/-- Log entry 7 (the model's choice): the step from `withFetchWord` of a command's own word is `exec` of that command,
in the state acceptance leaves. -/
def Obligations.PlacedCommandRuns : Prop :=
  ∀ (s : State) (i : Instr), step (s.withFetchWord 64 (encode i).toNat) = exec i (accept s (encode i))

/-! ## Shifts -/

/-- R121 whole: encoding, value, word-level form, what is written and what is not. -/
def Obligations.ShlShiftsLeft : Prop :=
  decode 0x3 = .ok .shl ∧
    ∀ s : State, ∃ t, exec .shl s = .next t ∧
      t.q.toNat = (if s.lshamt.toNat ≥ 512 then 0 else s.la.toNat * 2 ^ s.lshamt.toNat % 2 ^ 512) ∧
      (s.lshamt.toNat < 512 → ∀ i < 8, wordOf t.q i = shlWord s.la s.lshamt.toNat i) ∧
      CompletedWith 0 false false s t ∧ t.status.borrow = s.status.borrow ∧ OthersKept (wideRegs .q) s t

/-- R122 whole. -/
def Obligations.ShrShiftsRight : Prop :=
  decode 0x4 = .ok .shr ∧
    ∀ s : State, ∃ t, exec .shr s = .next t ∧
      t.q.toNat = (if s.lshamt.toNat ≥ 512 then 0 else s.la.toNat / 2 ^ s.lshamt.toNat) ∧
      (s.lshamt.toNat < 512 → ∀ i < 8, wordOf t.q i = shrWord s.la s.lshamt.toNat i) ∧
      CompletedWith 0 false false s t ∧ t.status.borrow = s.status.borrow ∧ OthersKept (wideRegs .q) s t

/-- R123, which the spec derives: SHR by k divides by 2^k, as DIV and (k ≤ 63) DIVS do; SHL then SHR by 512 − k keeps the low k bits. -/
def Obligations.ShiftLawsHold : Prop :=
  (∀ (s : State) (k : Nat), k ≤ 511 → s.lshamt.toNat = k →
    ∃ t u, exec .shr s = .next t ∧ t.q.toNat = s.la.toNat / 2 ^ k ∧
      exec .div { s with lb := BitVec.ofNat 512 (2 ^ k) } = .next u ∧ u.q = t.q) ∧
  (∀ (s : State) (k : Nat), k ≤ 63 → s.lshamt.toNat = k →
    ∃ t u, exec .shr s = .next t ∧ exec .divs { s with lscl := BitVec.ofNat 64 (2 ^ k) } = .next u ∧ u.q = t.q) ∧
  ∀ (s : State) (k : Nat), k ≤ 512 → s.lshamt.toNat = 512 - k →
    ∃ t u, exec .shl s = .next t ∧ exec .shr { s with la := t.q } = .next u ∧ u.q.toNat = s.la.toNat % 2 ^ k

/-! ## Compares -/

/-- R124 whole. -/
def Obligations.CmpsComparesWithScalar : Prop :=
  decode 0x5 = .ok .cmps ∧
    ∀ s : State, ∃ t, exec .cmps s = .next t ∧
      (s.la.toNat < s.lscl.toNat → t.cmpr = 0xFFFFFFFFFFFFFFFF) ∧ (s.la.toNat = s.lscl.toNat → t.cmpr = 0) ∧
      (s.lscl.toNat < s.la.toNat → t.cmpr = 1) ∧
      ((∃ i, 1 ≤ i ∧ i ≤ 7 ∧ wordOf s.la i ≠ 0) → t.cmpr = 1) ∧
      CompletedWith 0 false false s t ∧ t.status.borrow = s.status.borrow ∧ OthersKept [.cmpr] s t

/-- R125 whole: the value and the word-level scan. The clause on `sigWidth` is the sentence R125 marks as derived from
R10. -/
def Obligations.CmpComparesValues : Prop :=
  decode 0x6 = .ok .cmp ∧
    ∀ s : State, ∃ t, exec .cmp s = .next t ∧
      (s.la.toNat < s.lb.toNat → t.cmpr = 0xFFFFFFFFFFFFFFFF) ∧ (s.la.toNat = s.lb.toNat → t.cmpr = 0) ∧
      (s.lb.toNat < s.la.toNat → t.cmpr = 1) ∧ t.cmpr = cmprWord (scanCompare s.la s.lb) ∧
      (sigWidth s.la < sigWidth s.lb → t.cmpr = 0xFFFFFFFFFFFFFFFF) ∧
      CompletedWith 0 false false s t ∧ t.status.borrow = s.status.borrow ∧ OthersKept [.cmpr] s t

/-! ## Subtract with borrow -/

/-- R126 whole. -/
def Obligations.SubbSubtractsWithBorrow : Prop :=
  decode 0x7 = .ok (.subb 0) ∧ decode 0x107 = .ok (.subb 1) ∧
    ∀ (s : State) (bin : BitVec 1), ∃ t, exec (.subb bin) s = .next t ∧
      (t.q.toNat : Int) = ((s.la.toNat : Int) - s.lb.toNat - bin.toNat) % 2 ^ 512 ∧
      (t.status.borrow = true ↔ s.la.toNat < s.lb.toNat + bin.toNat) ∧
      CompletedWith 0 false false s t ∧ OthersKept (wideRegs .q) s t

/-- R127, which the spec derives: the borrow chain over the words gives Q and BORROW. -/
def Obligations.SubbRunsTheBorrowChain : Prop :=
  ∀ (s : State) (bin : BitVec 1), ∃ t, exec (.subb bin) s = .next t ∧
    (wordsOf t.q, t.status.borrow) = subChain (wordsOf s.la) (wordsOf s.lb) (decide (bin = 1))

/-- R128, which the spec derives: SUBB of the low halves with bin = 0, then of the high halves with bin set to the first BORROW, subtracts
1024-bit values. -/
def Obligations.SubbChainsPast512Bits : Prop :=
  ∀ low high : State, ∃ t u, exec (.subb 0) low = .next t ∧
    exec (.subb (BitVec.ofBool t.status.borrow)) high = .next u ∧
    ((u.q.toNat * 2 ^ 512 + t.q.toNat : Nat) : Int) =
      (((high.la.toNat * 2 ^ 512 + low.la.toNat : Nat) : Int) - (high.lb.toNat * 2 ^ 512 + low.lb.toNat : Nat)) % 2 ^ 1024 ∧
    (u.status.borrow = true ↔
      high.la.toNat * 2 ^ 512 + low.la.toNat < high.lb.toNat * 2 ^ 512 + low.lb.toNat)

/-! ## Single-word division -/

/-- R173, and R174, which the spec derives from it: with hi < d the dividend is at most d · 2^64 − 1, the word step is the
exact floor quotient and remainder, each fits its word, and the loop keeps r < d. -/
def Obligations.WordDivideIsExact : Prop :=
  (∀ hi lo d : Word, hi.toNat < d.toNat →
    hi.toNat * 2 ^ 64 + lo.toNat ≤ d.toNat * 2 ^ 64 - 1 ∧
    (hi.toNat * 2 ^ 64 + lo.toNat) / d.toNat < 2 ^ 64 ∧
    (div128by64 hi lo d).1.toNat = (hi.toNat * 2 ^ 64 + lo.toNat) / d.toNat ∧
    (div128by64 hi lo d).2.toNat = (hi.toNat * 2 ^ 64 + lo.toNat) % d.toNat ∧
    (div128by64 hi lo d).2.toNat < d.toNat) ∧
  ∀ (x q : Val512) (d r : Word) (k : Nat), r.toNat < d.toNat → (divsLoop x d k (q, r)).2.toNat < d.toNat

/-- R170, whole. The clauses on `toNat` are R175, which the spec derives: the floor quotient and remainder, the unique pair
of the division identity. -/
def Obligations.DivsDividesByScalar : Prop :=
  decode 0x2 = .ok .divs ∧
    (∀ s : State, s.lscl ≠ 0 → ∃ t, exec .divs s = .next t ∧ t.q = (divsCore s.la s.lscl).1 ∧
      t.rs = (divsCore s.la s.lscl).2 ∧ t.q.toNat = s.la.toNat / s.lscl.toNat ∧
      t.rs.toNat = s.la.toNat % s.lscl.toNat ∧ s.la.toNat = t.q.toNat * s.lscl.toNat + t.rs.toNat ∧
      t.rs.toNat < s.lscl.toNat ∧
      (∀ q r : Nat, s.la.toNat = q * s.lscl.toNat + r → r < s.lscl.toNat → q = t.q.toNat ∧ r = t.rs.toNat) ∧
      CompletedWith 0 false false s t ∧ t.status.borrow = s.status.borrow ∧
      OthersKept (.rs :: wideRegs .q) s t) ∧
    ∀ s : State, s.lscl = 0 → ∃ t, exec .divs s = .next t ∧ t.q = 0 ∧ t.rs = 0 ∧
      CompletedWith 0xFFFFFFFFFFFFFFFF true false s t ∧ t.status.borrow = s.status.borrow ∧
      OthersKept (.rs :: wideRegs .q) s t

/-- R176: the edge cases of the scalar form. -/
def Obligations.DivsEdgeCases : Prop :=
  ∀ s : State, ∃ t, exec .divs s = .next t ∧
    (s.la = 0 → s.lscl ≠ 0 → t.q = 0 ∧ t.rs = 0) ∧
    (s.lscl = 1 → t.q = s.la ∧ t.rs = 0) ∧
    (s.lscl ≠ 0 → s.la.toNat = s.lscl.toNat → t.q = 1 ∧ t.rs = 0) ∧
    (∀ k, k ≤ 63 → s.lscl.toNat = 2 ^ k → t.q.toNat = s.la.toNat / 2 ^ k ∧ t.rs.toNat = s.la.toNat % 2 ^ k) ∧
    (∀ k, k ≤ 63 → s.lscl.toNat = 2 ^ k → s.lshamt.toNat = k → ∃ u, exec .shr s = .next u ∧ u.q = t.q) ∧
    (s.lscl = 0 → t.rc = 0xFFFFFFFFFFFFFFFF ∧ t.status.dz = true) ∧
    (s.lscl = 1 → s.la.toNat = 2 ^ 512 - 1 → t.q.toNat = 2 ^ 512 - 1)

/-- R177: DIVS by 10 over and over, Q copied back into OPA each time, gives the decimal digits, least significant
first. -/
def Obligations.RepeatedDivsGivesDigits : Prop :=
  ∀ (k : Nat) (s : State), s.scl = 10 → s.lscl = 10 →
    ∃ u t, repeatDivs k s = .next u ∧ exec .divs u = .next t ∧ t.rs.toNat = s.la.toNat / 10 ^ k % 10 ∧
      t.q.toNat = s.la.toNat / 10 ^ (k + 1)

/-- R171, R192, R241: DivideByZero is raised by DIV with LB = 0 and DIVS with LSCL = 0 and by no other command, and it
records −1, DZ, and zeros in Q and the command's remainder register. -/
def Obligations.DivideByZeroIsReported : Prop :=
  ∀ (i : Instr) (s : State), ∃ t, exec i s = .next t ∧
    (t.rc = 0xFFFFFFFFFFFFFFFF ↔ (i = .div ∧ s.lb = 0) ∨ (i = .divs ∧ s.lscl = 0)) ∧
    (t.status.dz = true ↔ (i = .div ∧ s.lb = 0) ∨ (i = .divs ∧ s.lscl = 0)) ∧
    (i = .div → s.lb = 0 → t.q = 0 ∧ t.r = 0 ∧ CompletedWith 0xFFFFFFFFFFFFFFFF true false s t ∧
      OthersKept (wideRegs .q ++ wideRegs .r) s t) ∧
    (i = .divs → s.lscl = 0 → t.q = 0 ∧ t.rs = 0 ∧ CompletedWith 0xFFFFFFFFFFFFFFFF true false s t ∧
      OthersKept (.rs :: wideRegs .q) s t)

/-! ## Multi-word division -/

/-- R190, R192, R193, R194: the cases of DIV in their order, each with what it writes. -/
def Obligations.DivTakesItsCases : Prop :=
  decode 0x1 = .ok .div ∧
    ∀ s : State, ∃ t, exec .div s = .next t ∧
      (s.lb = 0 → t.q = 0 ∧ t.r = 0 ∧ CompletedWith 0xFFFFFFFFFFFFFFFF true false s t) ∧
      (s.lb ≠ 0 → CompletedWith 0 false false s t) ∧
      (s.la.toNat < s.lb.toNat → t.q = 0 ∧ t.r = s.la) ∧
      (s.lb.toNat ≤ s.la.toNat → sigWidth s.lb = 1 →
        t.q = (divsCore s.la (wordOf s.lb 0)).1 ∧ wordOf t.r 0 = (divsCore s.la (wordOf s.lb 0)).2 ∧
        ∀ i, 1 ≤ i → i ≤ 7 → wordOf t.r i = 0) ∧
      (s.lb.toNat ≤ s.la.toNat → 2 ≤ sigWidth s.lb → t.q = (algD s.la s.lb).1 ∧ t.r = (algD s.la s.lb).2) ∧
      t.rs = s.rs ∧ t.cmpr = s.cmpr ∧ t.status.borrow = s.status.borrow ∧
      OthersKept (wideRegs .q ++ wideRegs .r) s t

/-- R191: for B ≠ 0, whichever path is taken (Algorithm D's included), DIV writes the floor quotient and remainder; no
other pair meets R191's two conditions (the spec marks that uniqueness as derived). -/
def Obligations.DivGivesQuotientAndRemainder : Prop :=
  ∀ s : State, s.lb ≠ 0 → ∃ t, exec .div s = .next t ∧
    t.q.toNat = s.la.toNat / s.lb.toNat ∧ t.r.toNat = s.la.toNat % s.lb.toNat ∧
    s.la.toNat = t.q.toNat * s.lb.toNat + t.r.toNat ∧ t.r.toNat < s.lb.toNat ∧ t.q.toNat * s.lb.toNat < 2 ^ 512 ∧
    ∀ q r : Nat, s.la.toNat = q * s.lb.toNat + r → r < s.lb.toNat → q = t.q.toNat ∧ r = t.r.toNat

/-- R203: the words of Q above position m − n, and the words of R at n and above, are 0. -/
def Obligations.DivHighWordsAreZero : Prop :=
  ∀ s : State, s.lb ≠ 0 → s.lb.toNat ≤ s.la.toNat → ∃ t, exec .div s = .next t ∧
    (∀ i, sigWidth s.la - sigWidth s.lb < i → wordOf t.q i = 0) ∧ ∀ i, sigWidth s.lb ≤ i → wordOf t.r i = 0

/-- R207: the corner cases of DIV. -/
def Obligations.DivCornerCases : Prop :=
  ∀ s : State, ∃ t, exec .div s = .next t ∧
    (s.lb ≠ 0 → s.la = 0 → t.q = 0 ∧ t.r = 0) ∧
    (s.lb = 1 → t.q = s.la ∧ t.r = 0) ∧
    (s.lb ≠ 0 → s.la = s.lb → t.q = 1 ∧ t.r = 0) ∧
    (∀ k, k ≤ 511 → s.lb.toNat = 2 ^ k → s.lshamt.toNat = k →
      ∃ u, exec .shr s = .next u ∧ u.q = t.q ∧ t.r.toNat = s.la.toNat % 2 ^ k) ∧
    (∀ k, k ≤ 511 → s.lb.toNat = 2 ^ k → s.lshamt.toNat = 512 - k →
      ∃ u w, exec .shl s = .next u ∧ exec .shr { s with la := u.q } = .next w ∧ w.q = t.r) ∧
    (s.lscl ≠ 0 → s.lb = s.lscl.setWidth 512 →
      ∃ u, exec .divs s = .next u ∧ u.q = t.q ∧ t.r = u.rs.setWidth 512) ∧
    (s.lb = 0 → t.rc = 0xFFFFFFFFFFFFFFFF) ∧
    (s.lscl = 0 → ∃ u, exec .divs s = .next u ∧ u.rc = 0xFFFFFFFFFFFFFFFF) ∧
    (s.la.toNat = 2 ^ 512 - 1 → s.lb = 1 → t.q.toNat = 2 ^ 512 - 1) ∧
    (s.la.toNat = 2 ^ 512 - 1 → s.lb.toNat = 2 ^ 64 → t.q.toNat = 2 ^ 448 - 1) ∧
    (2 ≤ sigWidth s.lb → t.q.toNat ≤ 2 ^ 448 - 1)

/-- R195: the working copies are A · 2^f and B · 2^f exactly; v has n words and bit 63 of its top word is 1; with f = 0
the word u[m] is 0; and m ≥ n where A ≥ B. -/
def Obligations.NormalizationTopsTheDivisor : Prop :=
  ∀ a b : Val512, b ≠ 0 → normShift b ≤ 63 ∧ (normDivisor b).toNat = b.toNat * 2 ^ normShift b ∧
    (normDivisor b).toNat < 2 ^ (64 * sigWidth b) ∧ (wordOf (normDivisor b) (sigWidth b - 1)).getLsbD 63 = true ∧
    (normDividend a (normShift b)).toNat = a.toNat * 2 ^ normShift b ∧
    (normDividend a (normShift b)).toNat < 2 ^ (64 * (sigWidth a + 1)) ∧
    (normShift b = 0 → wordOf (normDividend a (normShift b)) (sigWidth a) = 0) ∧
    (b.toNat ≤ a.toNat → sigWidth b ≤ sigWidth a)

/-- R205, R198 (Knuth's facts, which the spec marks as general knowledge): the estimate is the digit or up to two above
it, after refinement up to one above, the refinement loop has settled, and the second add-back is never taken. -/
def Obligations.TrialDigitIsNearTheDigit : Prop :=
  ∀ (u : Val576) (v : Val512) (n j : Nat), 2 ≤ n → j + n ≤ 8 → v.toNat < 2 ^ (64 * n) →
    2 ^ (64 * n - 1) ≤ v.toNat → u.toNat < v.toNat * 2 ^ (64 * (j + 1)) →
    let digit := u.toNat / 2 ^ (64 * j) / v.toNat
    let guess := (estimate ((wordOf u (j + n)).toNat * 2 ^ 64 + (wordOf u (j + n - 1)).toNat)
      (wordOf v (n - 1)).toNat).1
    digit ≤ guess ∧ guess ≤ digit + 2 ∧ digit ≤ (trialDigit u v n j).1 ∧ (trialDigit u v n j).1 ≤ digit + 1 ∧
      refineTest (wordOf v (n - 2)).toNat (wordOf u (j + n - 2)).toNat (trialDigit u v n j) = false ∧
      0 ≤ (addBack v.toNat ((trialDigit u v n j).1, mulSub (window u j n) (trialDigit u v n j).1 v.toNat)).2

/-- R201, R204: one round stores the exact digit of the window, which fits one word, leaves the other digits, and leaves
the partial remainder in the window, whose top word becomes 0. -/
def Obligations.DigitStepIsExact : Prop :=
  ∀ (w : LongWork) (v : Val512) (n j : Nat), 2 ≤ n → j + n ≤ 8 → v.toNat < 2 ^ (64 * n) →
    2 ^ (64 * n - 1) ≤ v.toNat → w.u.toNat < v.toNat * 2 ^ (64 * (j + 1)) →
    (wordOf (digitStep v n j w).q j).toNat = window w.u j n / v.toNat ∧ window w.u j n / v.toNat < 2 ^ 64 ∧
      (∀ i, i ≠ j → wordOf (digitStep v n j w).q i = wordOf w.q i) ∧
      window (digitStep v n j w).u j n = window w.u j n % v.toNat ∧
      wordOf (digitStep v n j w).u (j + n) = 0 ∧
      (digitStep v n j w).u.toNat % 2 ^ (64 * j) = w.u.toNat % 2 ^ (64 * j)

/-- R202, with the sentence it marks as derived: after the loop the working dividend is (A mod B) · 2^f, so its low f bits are 0 and the shift loses none. -/
def Obligations.NormalizedRemainderDenormalizes : Prop :=
  ∀ a b : Val512, 2 ≤ sigWidth b → b.toNat ≤ a.toNat →
    (algDWork a b).u.toNat = a.toNat % b.toNat * 2 ^ normShift b ∧
      (algDWork a b).u.toNat % 2 ^ normShift b = 0 ∧
      (denormalize (algDWork a b).u (sigWidth b) (normShift b)).toNat = a.toNat % b.toNat ∧
      ∀ i, sigWidth b ≤ i → wordOf (denormalize (algDWork a b).u (sigWidth b) (normShift b)) i = 0

/-- R199: the word-level multiply and subtract leaves t mod 2^(64(n+1)) in the window and borrows exactly when t < 0. -/
def Obligations.MulSubWordFormAgrees : Prop :=
  ∀ (qHat : Word) (vs us : List Word), us.length = vs.length + 1 →
    let t := mulSub (wordsVal us) qHat.toNat (wordsVal vs)
    let r := mulSubWords qHat vs us 0 false
    r.1.length = us.length ∧ (wordsVal r.1 : Int) = t % 2 ^ (64 * us.length) ∧ (r.2 = true ↔ t < 0)

/-- R200: the word-level add-back adds v into the window mod 2^(64(n+1)), and the subtraction "is still borrowing exactly
when this add produces no carry out of word j+n". -/
def Obligations.AddBackWordFormAgrees : Prop :=
  ∀ (vs us : List Word) (t : Int), us.length = vs.length + 1 → t < 0 → -(2 * (wordsVal vs : Int)) ≤ t →
    (wordsVal us : Int) = t % 2 ^ (64 * us.length) →
    let r := addBackWords vs us 0
    r.1.length = us.length ∧ (wordsVal r.1 : Int) = (t + wordsVal vs) % 2 ^ (64 * us.length) ∧
      (r.2 = 0 ↔ (addBack (wordsVal vs) (1, t)).2 < 0)

/-! ## Lifecycle and errors -/

/-- R242: an illegal word in progress completes, on the sequencer's event or with no event left, with −2, ILL 1, DZ 0, no
result register and no BORROW written. -/
def Obligations.IllegalCommandIsReported : Prop :=
  ∀ (s : State) (e : DecodeError), Completing s → decode s.lcmd = .error e → ∃ t, step s = .next t ∧
    CompletedWith 0xFFFFFFFFFFFFFFFE false true (withScript s s.script.tail) t ∧ t.status.borrow = s.status.borrow ∧
    OthersKept [] s t

/-- R243: every completion, on the sequencer's event or with no event left, reports exactly one code, the conditions
tested in R243's order: the word, then a zero divisor, then success; OVR, which an ignored CMD write set, stays and does not change the code. -/
def Obligations.EveryCompletionReportsOneCode : Prop :=
  ∀ s : State, Completing s →
    ∃ t, step s = .next t ∧ t.status.ovr = s.status.ovr ∧
      t.rc = match decode s.lcmd with
        | .error _ => 0xFFFFFFFFFFFFFFFE
        | .ok .div => if s.lb = 0 then 0xFFFFFFFFFFFFFFFF else 0
        | .ok .divs => if s.lscl = 0 then 0xFFFFFFFFFFFFFFFF else 0
        | .ok .shl | .ok .shr | .ok .cmps | .ok .cmp | .ok (.subb _) => 0

/-- R66: a CMD write while idle, of any word, legal or not. -/
def Obligations.AcceptanceLatchesOperands : Prop :=
  ∀ (s : State) (c : Word) (rest : List Event), s.phase = .idle → s.script = .host (.write 0x090 8 c) :: rest →
    ∃ t, step s = .next t ∧ t.cmd = c ∧ t.lcmd = c ∧ t.la = s.opa ∧ t.lb = s.opb ∧ t.lscl = s.scl ∧
      t.lshamt = s.shamt ∧ t.phase = .busy ∧
      t.status = ⟨true, false, s.status.dz, s.status.ill, s.status.borrow, false⟩ ∧
      (∀ reg, reg ≠ .cmd → reg ≠ .status → readReg t reg = readReg s reg) ∧ t.script = rest ∧ t.reads = s.reads

/-- R68: a CMD write while busy changes OVR and nothing else. -/
def Obligations.OverrunIsIgnored : Prop :=
  ∀ (s : State) (c : Word) (rest : List Event), s.phase = .busy → s.script = .host (.write 0x090 8 c) :: rest →
    ∃ t, step s = .next t ∧ t.status = { s.status with ovr := true } ∧
      (∀ reg, reg ≠ .status → readReg t reg = readReg s reg) ∧
      t.phase = .busy ∧ t.lcmd = s.lcmd ∧ t.la = s.la ∧ t.lb = s.lb ∧ t.lscl = s.lscl ∧ t.lshamt = s.lshamt ∧
      t.script = rest ∧ t.reads = s.reads

/-- R31: the bits of STATUS as a host reads them. -/
def Obligations.StatusBitsAreLaidOut : Prop :=
  ∀ s : State, windowWord s 0x098 = statusWord s.status ∧
    (statusWord s.status).getLsbD 0 = s.status.busy ∧ (statusWord s.status).getLsbD 1 = s.status.done ∧
    (statusWord s.status).getLsbD 2 = s.status.dz ∧ (statusWord s.status).getLsbD 3 = s.status.ill ∧
    (statusWord s.status).getLsbD 4 = s.status.borrow ∧ (statusWord s.status).getLsbD 5 = s.status.ovr ∧
    ∀ k, 6 ≤ k → (statusWord s.status).getLsbD k = false

/-! ## The register window -/

/-- R64: reserved offsets read 0; writes to them and to the read-only registers change no state and set no flag. -/
def Obligations.ReservedAndReadOnlyAccesses : Prop :=
  (∀ (s : State) (off : Nat) (rest : List Event), ReservedOffset off → s.script = .host (.read off 8) :: rest →
    step s = .next { s with script := rest, reads := ⟨off, 0⟩ :: s.reads }) ∧
  ∀ (s : State) (off : Nat) (v : Word) (rest : List Event), ReservedOffset off ∨ ReadOnlyOffset off →
    s.script = .host (.write off 8 v) :: rest → step s = .next { s with script := rest }

/-- R65: reads change no register; a write to an operand register sets that register and nothing else; a CMD write starts
a command or sets OVR. -/
def Obligations.HostAccessesHaveOnlyTheirEffect : Prop :=
  (∀ (s : State) (off : Nat) (rest : List Event), off % 8 = 0 → off < 0x200 →
    s.script = .host (.read off 8) :: rest →
    step s = .next { s with script := rest, reads := ⟨off, windowWord s off⟩ :: s.reads }) ∧
  (∀ (s : State) (reg : Reg) (v : Word), reg ∈ operandRegs → HostWriting s reg v →
    ∃ t, step s = .next t ∧ readReg t reg = v ∧ (∀ other, other ≠ reg → readReg t other = readReg s other) ∧
      t.phase = s.phase ∧ t.lcmd = s.lcmd ∧ t.la = s.la ∧ t.lb = s.lb ∧ t.lscl = s.lscl ∧ t.lshamt = s.lshamt) ∧
  ∀ (s : State) (v : Word), HostWriting s .cmd v →
    ∃ t, step s = .next t ∧ t.phase = .busy ∧ (s.phase = .busy → t.status.ovr = true)

/-- R20, R61: each register is at its offset: word `i` of OPA, OPB, Q, R at 0x000, 0x040, 0x0C0, 0x100 plus 8·i. -/
def Obligations.WindowHoldsTheRegisterMap : Prop :=
  ∀ s : State,
    (∀ i < 8, windowWord s (0x000 + 8 * i) = wordOf s.opa i ∧ windowWord s (0x040 + 8 * i) = wordOf s.opb i ∧
      windowWord s (0x0C0 + 8 * i) = wordOf s.q i ∧ windowWord s (0x100 + 8 * i) = wordOf s.r i) ∧
    windowWord s 0x080 = s.scl ∧ windowWord s 0x088 = s.shamt ∧ windowWord s 0x090 = s.cmd ∧
    windowWord s 0x098 = statusWord s.status ∧ windowWord s 0x0A0 = s.rc ∧ windowWord s 0x0A8 = s.cmpr ∧
    windowWord s 0x0B0 = s.rs ∧
    ∀ x : Val512, x.toNat = (wordOf x 0).toNat + (wordOf x 1).toNat * 2 ^ 64 + (wordOf x 2).toNat * 2 ^ 128
      + (wordOf x 3).toNat * 2 ^ 192 + (wordOf x 4).toNat * 2 ^ 256 + (wordOf x 5).toNat * 2 ^ 320
      + (wordOf x 6).toNat * 2 ^ 384 + (wordOf x 7).toNat * 2 ^ 448

/-- R62: the byte at `off + k` is bits [8k+7:8k] of the register at `off`. -/
def Obligations.BytesAreLittleEndian : Prop :=
  ∀ (s : State) (reg : Reg) (k : Nat), k < 8 →
    (windowByte s (regOff reg + k)).toNat = (readReg s reg).toNat / 2 ^ (8 * k) % 2 ^ 8

/-- R63: an access is refused exactly when it is not 64 bits wide, not at a multiple of 8, or at or beyond 0x200. -/
def Obligations.OutsideAccessesAreRefused : Prop :=
  ∀ (s : State) (a : HostAccess) (off bytes : Nat) (rest : List Event), s.script = .host a :: rest →
    (a = .read off bytes ∨ ∃ v, a = .write off bytes v) →
    (step s = .refused (.outsideInterface off bytes) ↔ ¬ (bytes = 8 ∧ off % 8 = 0 ∧ off < 0x200)) ∧
      ((bytes = 8 ∧ off % 8 = 0 ∧ off < 0x200) → ∃ t, step s = .next t)

/-- R60: BASE is a multiple of 0x200, and the window is the 0x200 bytes from it. -/
def Obligations.BusWindowIsMapped : Prop :=
  ∀ k : Nat, 0x200 ∣ Config.base k ∧ (∀ off < 0x200, busOffset k (busAddress k off) = some off) ∧
    ∀ addr, addr < Config.base k ∨ Config.base k + 0x200 ≤ addr → busOffset k addr = none

/-! ## Reset -/

/-- R270, R272: reset, whatever the block was doing: every register and flag reads 0 and the phase is IDLE. That the events
to come stay (`t.script = rest`) is the model's choice, log entry 19. -/
def Obligations.ResetClearsTheBlock : Prop :=
  ∀ (s : State) (rest : List Event), s.script = .reset :: rest → ∃ t, step s = .next t ∧
    (∀ reg, readReg t reg = 0) ∧ t.status = ⟨false, false, false, false, false, false⟩ ∧ t.phase = .idle ∧
    t.script = rest

/-- R271, which the spec derives: after reset every offset of the window reads 0, and the block is idle. -/
def Obligations.ResetStateReadsZero : Prop :=
  (∀ off, windowWord State.reset off = 0) ∧ State.reset.phase = .idle

/-! ## Invariants and whole-machine rules -/

/-- R271, R33, R34: the invariant holds at reset. -/
def Obligations.InvariantHoldsAtReset : Prop := Inv State.reset

/-- R28, R32, R33, R34, R38, R248: every step keeps the invariant. -/
def Obligations.InvariantIsKept : Prop := ∀ s t : State, Inv s → step s = .next t → Inv t

/-- R25 to R29: each result register changes only at the completion of a command that writes it, or at reset. -/
def Obligations.ResultsWrittenOnlyByCompletions : Prop :=
  ∀ s t : State, step s = .next t → ¬ Resetting s →
    (t.q ≠ s.q → Completing s ∧ ∃ i, decode s.lcmd = .ok i ∧ (i = .div ∨ i = .divs ∨ i = .shl ∨ i = .shr ∨
      ∃ bin, i = .subb bin)) ∧
    (t.r ≠ s.r → Completing s ∧ decode s.lcmd = .ok .div) ∧
    (t.rs ≠ s.rs → Completing s ∧ decode s.lcmd = .ok .divs) ∧
    (t.cmpr ≠ s.cmpr → Completing s ∧ (decode s.lcmd = .ok .cmps ∨ decode s.lcmd = .ok .cmp)) ∧
    (t.rc ≠ s.rc → Completing s)

/-- R21 to R24, R30: an operand register changes only at a host write to it, and CMD only at an accepted one, or at
reset. -/
def Obligations.OperandsWrittenOnlyByHost : Prop :=
  ∀ s t : State, step s = .next t → ¬ Resetting s →
    (t.opa ≠ s.opa → ∃ (i : Fin 8) (v : Word), HostWriting s (.word .opa i) v) ∧
    (t.opb ≠ s.opb → ∃ (i : Fin 8) (v : Word), HostWriting s (.word .opb i) v) ∧
    (t.scl ≠ s.scl → HostWriting s .scl t.scl) ∧ (t.shamt ≠ s.shamt → HostWriting s .shamt t.shamt) ∧
    (t.cmd ≠ s.cmd → s.phase = .idle ∧ HostWriting s .cmd t.cmd)

/-- R31, R35: which event each flag changes at. -/
def Obligations.FlagsChangeOnlyAtTheirEvents : Prop :=
  ∀ s t : State, step s = .next t → ¬ Resetting s →
    (s.status.busy = false → t.status.busy = true → s.phase = .idle ∧ ∃ c, HostWriting s .cmd c) ∧
    (s.status.busy = true → t.status.busy = false → Completing s) ∧
    (s.status.done = false → t.status.done = true → Completing s) ∧
    (s.status.done = true → t.status.done = false → s.phase = .idle ∧ ∃ c, HostWriting s .cmd c) ∧
    (t.status.dz ≠ s.status.dz → Completing s) ∧ (t.status.ill ≠ s.status.ill → Completing s) ∧
    (t.status.borrow ≠ s.status.borrow → Completing s ∧ ∃ bin, decode s.lcmd = .ok (.subb bin)) ∧
    (s.status.ovr = false → t.status.ovr = true → s.phase = .busy ∧ ∃ c, HostWriting s .cmd c) ∧
    (s.status.ovr = true → t.status.ovr = false → s.phase = .idle ∧ ∃ c, HostWriting s .cmd c)

/-- R33, which the spec derives: never both; both 0 after reset; once one of DONE and BUSY is 1, exactly one is after every step but reset. -/
def Obligations.BusyOrDoneAfterAcceptance : Prop :=
  State.reset.status.busy = false ∧ State.reset.status.done = false ∧
  (∀ s t : State, Inv s → step s = .next t → s.phase = .idle → (∃ c, HostWriting s .cmd c) →
    t.status.busy = true ∧ t.status.done = false) ∧
  ∀ s t : State, Inv s → step s = .next t → ¬ Resetting s → (s.status.busy = true ∨ s.status.done = true) →
    (t.status.busy = true ↔ t.status.done = false)

/-- R6: what a command writes depends on its word and the latched operands only. -/
def Obligations.ResultsDependOnlyOnLatches : Prop :=
  ∀ (i : Instr) (s₁ s₂ t₁ t₂ : State), s₁.la = s₂.la → s₁.lb = s₂.lb → s₁.lscl = s₂.lscl → s₁.lshamt = s₂.lshamt →
    exec i s₁ = .next t₁ → exec i s₂ = .next t₂ →
    (∀ reg ∈ writtenRegs i, readReg t₁ reg = readReg t₂ reg) ∧ t₁.rc = t₂.rc ∧ t₁.status.dz = t₂.status.dz ∧
      t₁.status.ill = t₂.status.ill ∧ (∀ bin, i = .subb bin → t₁.status.borrow = t₂.status.borrow)

/-- R67, R284: weak fairness. A run through the events to come and one step more ends quiescent. A command in progress,
where no reset is to come (R272: a reset abandons it), stays in progress with its word and operands latched until a step
that completes it, with DONE = 1 and the code of that word and those operands; and the run ends with DONE = 1. -/
def Obligations.EveryCommandCompletes : Prop :=
  (∀ s : State, (∀ ev ∈ s.script, interfaceEvent ev = true) →
    ∃ t, core.run (s.script.length + 1) s = .next t ∧ t.phase = .idle ∧ t.script = []) ∧
  ∀ s : State, (∀ ev ∈ s.script, interfaceEvent ev = true) → .reset ∉ s.script → s.phase = .busy →
    (∃ k u v, k ≤ s.script.length ∧
      (∀ j ≤ k, ∃ w, core.run j s = .next w ∧ w.phase = .busy ∧ LatchesKept s w) ∧
      core.run k s = .next u ∧ Completing u ∧ step u = .next v ∧
      CompletedWith (codeWord (latchedEffect s).code) (decide ((latchedEffect s).code = .divideByZero))
        (decide ((latchedEffect s).code = .illegalCommand)) (withScript u u.script.tail) v) ∧
    ∃ t, core.run (s.script.length + 1) s = .next t ∧ t.phase = .idle ∧ t.script = [] ∧ t.status.done = true

/-- R71, which the spec derives: after DONE = 1, with no accepted CMD write, result registers, RC and STATUS keep the values that completion
wrote, whatever else happens. -/
def Obligations.ResultsStayVisibleAfterDone : Prop :=
  ∀ (evs : List Event) (s : State), Inv s → s.status.done = true → s.script = evs →
    (∀ ev ∈ evs, noCommandEvent ev = true) →
    ∃ t, core.run evs.length s = .next t ∧ ∀ reg ∈ resultRegs, readReg t reg = readReg s reg

/-- R278: a host write to an operand register during a command gives the same state before the completion as after. -/
def Obligations.OperandWritesDuringCommandAreSafe : Prop :=
  ∀ (s : State) (reg : Reg) (v : Word) (rest : List Event), s.phase = .busy → reg ∈ operandRegs →
    ∃ t, core.run 2 (withScript s (.host (.write (regOff reg) 8 v) :: .sequencer :: rest)) = .next t ∧
      core.run 2 (withScript s (.sequencer :: .host (.write (regOff reg) 8 v) :: rest)) = .next t ∧
      t.phase = .idle ∧ readReg t reg = v

/-- R253: a step of one instance leaves every other instance as it was. -/
def Obligations.InstancesAreIndependent : Prop :=
  ∀ (p p' : List State) (k : Nat), platformStep p k = .next p' →
    p'.length = p.length ∧ (∀ j, j ≠ k → p'[j]? = p[j]?) ∧
      ∀ s, p[k]? = some s → ∃ t, step s = .next t ∧ p'[k]? = some t

/-! ## Frames, byte by byte of the window -/

/-- R120, R121, R122: SHL and SHR leave every byte but those of STATUS, RC and Q, and leave BORROW and OVR. -/
def Obligations.ShiftFrame : Prop :=
  ∀ (i : Instr) (s t : State), i = .shl ∨ i = .shr → exec i s = .next t →
    (∀ a, ¬ (0x098 ≤ a ∧ a < 0x0A8) → ¬ (0x0C0 ≤ a ∧ a < 0x100) → windowByte t a = windowByte s a) ∧
      t.status.borrow = s.status.borrow ∧ t.status.ovr = s.status.ovr ∧ t.script = s.script ∧ t.reads = s.reads

/-- R120, R124, R125: CMPS and CMP leave every byte but those of STATUS, RC and CMPR, and leave BORROW and OVR. -/
def Obligations.CompareFrame : Prop :=
  ∀ (i : Instr) (s t : State), i = .cmps ∨ i = .cmp → exec i s = .next t →
    (∀ a, ¬ (0x098 ≤ a ∧ a < 0x0B0) → windowByte t a = windowByte s a) ∧
      t.status.borrow = s.status.borrow ∧ t.status.ovr = s.status.ovr ∧ t.script = s.script ∧ t.reads = s.reads

/-- R120, R126: SUBB leaves every byte but those of STATUS, RC and Q, and leaves OVR. -/
def Obligations.SubbFrame : Prop :=
  ∀ (bin : BitVec 1) (s t : State), exec (.subb bin) s = .next t →
    (∀ a, ¬ (0x098 ≤ a ∧ a < 0x0A8) → ¬ (0x0C0 ≤ a ∧ a < 0x100) → windowByte t a = windowByte s a) ∧
      t.status.dz = false ∧ t.status.ill = false ∧ t.status.ovr = s.status.ovr ∧ t.script = s.script ∧
      t.reads = s.reads

/-- R170, R190: DIVS leaves every byte but those of STATUS, RC, RS and Q, DIV every byte but those of STATUS, RC, Q and R;
both leave BORROW and OVR. -/
def Obligations.DivisionFrame : Prop :=
  (∀ s t : State, exec .divs s = .next t →
    (∀ a, ¬ (0x098 ≤ a ∧ a < 0x0A8) → ¬ (0x0B0 ≤ a ∧ a < 0x0B8) → ¬ (0x0C0 ≤ a ∧ a < 0x100) →
      windowByte t a = windowByte s a) ∧
      t.status.borrow = s.status.borrow ∧ t.status.ovr = s.status.ovr ∧ t.script = s.script ∧ t.reads = s.reads) ∧
  ∀ s t : State, exec .div s = .next t →
    (∀ a, ¬ (0x098 ≤ a ∧ a < 0x0A8) → ¬ (0x0C0 ≤ a ∧ a < 0x140) → windowByte t a = windowByte s a) ∧
      t.status.borrow = s.status.borrow ∧ t.status.ovr = s.status.ovr ∧ t.script = s.script ∧ t.reads = s.reads

/-! ## The host's pseudo-instructions -/

/-- R98: `ld` loads its operand register, in word order or any other order, and changes nothing else. -/
def Obligations.LdLoadsInAnyOrder : Prop :=
  ∀ (s : State) (imm : Val512) (p : List Stmt),
    (p.Perm (ldStmts .opa imm) →
      core.run 8 (withScript s (stmtEvents p)) = .next { s with script := [], opa := imm }) ∧
    (p.Perm (ldStmts .opb imm) →
      core.run 8 (withScript s (stmtEvents p)) = .next { s with script := [], opb := imm })

/-- R98: `mov OPA, Q` and the other wide moves: the eight reads return the source's words, and the destination ends equal
to the source. -/
def Obligations.MovCopiesARegister : Prop :=
  ∀ (s : State) (src : Wide),
    (∃ t, core.run 16 (withScript s (stmtEvents (movStmts .opa src (wideReg s src)))) = .next t ∧
      t.opa = wideReg s src ∧ t.opb = s.opb ∧ t.q = s.q ∧ t.r = s.r ∧
      t.reads = (wordIndices.map fun i => ⟨regOff (.word src i), wordOf (wideReg s src) i⟩).reverse ++ s.reads) ∧
    ∃ t, core.run 16 (withScript s (stmtEvents (movStmts .opb src (wideReg s src)))) = .next t ∧
      t.opb = wideReg s src ∧ t.opa = s.opa ∧ t.q = s.q ∧ t.r = s.r ∧
      t.reads = (wordIndices.map fun i => ⟨regOff (.word src i), wordOf (wideReg s src) i⟩).reverse ++ s.reads
end

