-- ==== Sys2Proof/Laws/Words.lean ====
section
/-! SUPPORT. What words of wide values, significant widths and leading-zero counts are (00_scope.md R8, R10, R11). -/

set_option exponentiation.threshold 600

namespace Sys2Proof.Machine

theorem toNat_wordOf {n : Nat} (x : BitVec n) (i : Nat) :
    (wordOf x i).toNat = x.toNat / 2 ^ (64 * i) % 2 ^ 64 := by
  simp [wordOf, BitVec.extractLsb'_toNat, Nat.shiftRight_eq_div_pow]

theorem getLsbD_wordOf {n : Nat} (x : BitVec n) (i j : Nat) :
    (wordOf x i).getLsbD j = (decide (j < 64) && x.getLsbD (64 * i + j)) := by
  simp [wordOf, BitVec.getLsbD_extractLsb']

theorem getLsbD_wordMask (i j : Nat) :
    (wordMask i).getLsbD j = (decide (j < 512) && decide (64 * i ≤ j) && decide (j < 64 * i + 64)) := by
  have h : (0xFFFFFFFFFFFFFFFF#512) = (BitVec.allOnes 64).setWidth 512 := by decide +kernel
  simp only [wordMask, h, BitVec.getLsbD_shiftLeft, BitVec.getLsbD_setWidth, BitVec.getLsbD_allOnes]
  by_cases h1 : j < 512 <;> by_cases h2 : 64 * i ≤ j <;> by_cases h3 : j < 64 * i + 64 <;>
    simp [h1, h2, h3] <;> omega

theorem getLsbD_setWord (x : Val512) (i : Nat) (v : Word) (j : Nat) :
    (setWord x i v).getLsbD j =
      if 64 * i ≤ j ∧ j < 64 * i + 64 then (decide (j < 512) && v.getLsbD (j - 64 * i)) else x.getLsbD j := by
  simp only [setWord, BitVec.getLsbD_or, BitVec.getLsbD_and, BitVec.getLsbD_not, getLsbD_wordMask,
    BitVec.getLsbD_shiftLeft, BitVec.getLsbD_setWidth]
  by_cases h1 : j < 512
  · by_cases h2 : 64 * i ≤ j <;> by_cases h3 : j < 64 * i + 64 <;>
      simp [h1, h2, h3, Nat.not_lt.mpr] <;> try omega
    have hv : v.getLsbD (j - 64 * i) = false := BitVec.getLsbD_of_ge _ _ (by omega)
    simp [hv]
  · have hx : x.getLsbD j = false := BitVec.getLsbD_of_ge _ _ (by omega)
    simp [h1, hx]

/-- R8: writing word `i` changes that word only. -/
theorem wordOf_setWord (x : Val512) (i : Nat) (hi : i < 8) (v : Word) (j : Nat) :
    wordOf (setWord x i v) j = if j = i then v else wordOf x j := by
  apply BitVec.eq_of_getLsbD_eq
  intro k hk
  rw [getLsbD_wordOf, getLsbD_setWord]
  by_cases hji : j = i
  · subst hji
    have h1 : 64 * j ≤ 64 * j + k ∧ 64 * j + k < 64 * j + 64 := by omega
    have h2 : 64 * j + k < 512 := by omega
    simp [h1, h2, hk]
  · have h1 : ¬ (64 * i ≤ 64 * j + k ∧ 64 * j + k < 64 * i + 64) := by omega
    rw [if_neg h1, if_neg hji, getLsbD_wordOf]

/-- R8: two values with the same eight words are equal. -/
theorem val_ext {x y : Val512} (h : ∀ i < 8, wordOf x i = wordOf y i) : x = y := by
  apply BitVec.eq_of_getLsbD_eq
  intro j hj
  have hw := congrArg (fun w => w.getLsbD (j % 64)) (h (j / 64) (by omega))
  simp only [getLsbD_wordOf] at hw
  have h1 : j % 64 < 64 := Nat.mod_lt _ (by decide)
  have h2 : 64 * (j / 64) + j % 64 = j := Nat.div_add_mod j 64
  simpa [h1, h2] using hw

/-- Filling in the next lower word of a value whose low words are still zero adds that digit. -/
theorem toNat_setWord_of_low_zero (x : Val512) (i : Nat) (hi : i < 8) (v : Word)
    (h : x.toNat % 2 ^ (64 * (i + 1)) = 0) :
    (setWord x i v).toNat = x.toNat + v.toNat * 2 ^ (64 * i) := by
  have hbits : ∀ j < 64 * (i + 1), x.getLsbD j = false := by
    intro j hj
    have := congrArg (fun n => n.testBit j) h
    simpa [Nat.testBit_mod_two_pow, hj, BitVec.getLsbD] using this
  have hmask : x &&& ~~~ wordMask i = x := by
    apply BitVec.eq_of_getLsbD_eq
    intro j hj
    rw [BitVec.getLsbD_and, BitVec.getLsbD_not, getLsbD_wordMask]
    by_cases hlow : j < 64 * (i + 1)
    · simp [hbits j hlow]
    · have : ¬ j < 64 * i + 64 := by omega
      have hx : x.getLsbD j = true → j < 512 := fun _ => hj
      simpa [this] using hx
  obtain ⟨c, hc⟩ := Nat.dvd_of_mod_eq_zero h
  have hv : v.toNat * 2 ^ (64 * i) < 2 ^ (64 * (i + 1)) := by
    have h1 : (2 : Nat) ^ (64 * (i + 1)) = 2 ^ 64 * 2 ^ (64 * i) := by rw [← Nat.pow_add]; congr 1; omega
    rw [h1]
    exact Nat.mul_lt_mul_of_pos_right v.isLt (Nat.two_pow_pos _)
  have hle : (2 : Nat) ^ (64 * (i + 1)) ≤ 2 ^ 512 := Nat.pow_le_pow_right (by decide) (by omega)
  have hshift : (v.setWidth 512 <<< (64 * i)).toNat = v.toNat * 2 ^ (64 * i) := by
    rw [BitVec.toNat_shiftLeft, BitVec.toNat_setWidth, Nat.shiftLeft_eq,
      Nat.mod_eq_of_lt (a := v.toNat) (lt_of_lt_of_le v.isLt (Nat.pow_le_pow_right (by decide) (by decide)))]
    exact Nat.mod_eq_of_lt (lt_of_lt_of_le hv hle)
  rw [setWord, hmask, BitVec.toNat_or, hshift, hc, ← Nat.two_pow_add_eq_or_of_lt hv]

theorem sigWidthBelow_le (x : Val512) (k : Nat) : sigWidthBelow x k ≤ k := by
  induction k with
  | zero => simp [sigWidthBelow]
  | succ k ih => unfold sigWidthBelow; split <;> omega

theorem sigWidth_le (x : Val512) : sigWidth x ≤ 8 := sigWidthBelow_le x 8

/-- R10: every word at or above the significant width is zero. -/
theorem lt_of_sigWidthBelow (x : Val512) (k : Nat) (h : x.toNat < 2 ^ (64 * k)) :
    x.toNat < 2 ^ (64 * sigWidthBelow x k) := by
  induction k with
  | zero => simpa [sigWidthBelow] using h
  | succ k ih =>
    unfold sigWidthBelow
    split
    · exact h
    · rename_i hz
      apply ih
      have h0 : x.toNat / 2 ^ (64 * k) % 2 ^ 64 = 0 := by
        rw [← toNat_wordOf]; simpa using congrArg BitVec.toNat (not_not.mp hz)
      have h1 : x.toNat / 2 ^ (64 * k) < 2 ^ 64 := by
        rw [Nat.div_lt_iff_lt_mul (Nat.two_pow_pos _), ← Nat.pow_add]
        simpa [Nat.mul_add, Nat.add_comm] using h
      rw [Nat.mod_eq_of_lt h1] at h0
      exact (Nat.div_eq_zero_iff_lt (Nat.two_pow_pos _)).mp h0

/-- R10: `val(X) < 2^(64*sw(X))`. -/
theorem lt_sigWidth (x : Val512) : x.toNat < 2 ^ (64 * sigWidth x) :=
  lt_of_sigWidthBelow x 8 x.isLt

theorem wordOf_top_ne_zero (x : Val512) (k : Nat) (h : 0 < sigWidthBelow x k) :
    wordOf x (sigWidthBelow x k - 1) ≠ 0 := by
  induction k with
  | zero => simp [sigWidthBelow] at h
  | succ k ih =>
    unfold sigWidthBelow at h ⊢
    split
    · rename_i hz; simpa using hz
    · rename_i hz; exact ih (by simpa only [if_neg hz] using h)

/-- R10: the top significant word of a non-zero value is not zero. -/
theorem wordOf_sigWidth_ne_zero (x : Val512) (h : x ≠ 0) : wordOf x (sigWidth x - 1) ≠ 0 := by
  apply wordOf_top_ne_zero
  rcases Nat.eq_zero_or_pos (sigWidthBelow x 8) with h0 | h0
  · exfalso
    have := lt_sigWidth x
    rw [sigWidth, h0] at this
    exact h (BitVec.eq_of_toNat_eq (by simp; omega))
  · exact h0

theorem sigWidth_pos (x : Val512) (h : x ≠ 0) : 0 < sigWidth x := by
  rcases Nat.eq_zero_or_pos (sigWidth x) with h0 | h0
  · have := lt_sigWidth x
    rw [h0] at this
    exact absurd (BitVec.eq_of_toNat_eq (by simp; omega)) h
  · exact h0

/-- R10: a value of significant width n ≥ 1 is at least 2^(64*(n-1)). -/
theorem le_of_sigWidth (x : Val512) (h : x ≠ 0) : 2 ^ (64 * (sigWidth x - 1)) ≤ x.toNat := by
  by_contra hlt
  have hw := wordOf_sigWidth_ne_zero x h
  apply hw
  apply BitVec.eq_of_toNat_eq
  rw [toNat_wordOf, (Nat.div_eq_zero_iff_lt (Nat.two_pow_pos _)).mpr (by omega)]
  simp

/-- R10: a larger value has at least the significant width. -/
theorem sigWidth_mono (x y : Val512) (hy : y ≠ 0) (h : y.toNat ≤ x.toNat) : sigWidth y ≤ sigWidth x := by
  by_contra hlt
  have h1 := le_of_sigWidth y hy
  have h2 := lt_sigWidth x
  have h3 : (2 : Nat) ^ (64 * sigWidth x) ≤ 2 ^ (64 * (sigWidth y - 1)) :=
    Nat.pow_le_pow_right (by decide) (by omega)
  omega

/-- R11: shifting out the leading zeros of the low `k` bits puts the top one at bit k − 1. -/
theorem leadingZeros_spec (w : Word) (k : Nat) (hk : k ≤ 64) (h0 : w.toNat ≠ 0) (h : w.toNat < 2 ^ k) :
    leadingZeros w k < k ∧ 2 ^ (k - 1) ≤ w.toNat * 2 ^ leadingZeros w k ∧ w.toNat * 2 ^ leadingZeros w k < 2 ^ k := by
  induction k with
  | zero => omega
  | succ k ih =>
    unfold leadingZeros
    by_cases hb : w.getLsbD k
    · have : 2 ^ k ≤ w.toNat := Nat.ge_two_pow_of_testBit hb
      simp [hb]; omega
    · have hlt : w.toNat < 2 ^ k := by
        apply Nat.lt_pow_two_of_testBit
        intro i hi
        rcases Nat.eq_or_lt_of_le hi with rfl | hgt
        · simpa [BitVec.getLsbD] using hb
        · exact Nat.testBit_lt_two_pow (lt_of_lt_of_le h (Nat.pow_le_pow_right (by decide) hgt))
      obtain ⟨h1, h2, h3⟩ := ih (by omega) hlt
      have hk0 : 0 < k := by omega
      have e1 : (2 : Nat) ^ (1 + leadingZeros w k) = 2 * 2 ^ leadingZeros w k := by rw [Nat.pow_add]
      have e2 : (2 : Nat) ^ k = 2 * 2 ^ (k - 1) := by
        conv_lhs => rw [show k = 1 + (k - 1) by omega, Nat.pow_add]
      simp only [hb, if_false, Bool.false_eq_true]
      rw [e1, Nat.mul_left_comm]
      refine ⟨by omega, ?_, ?_⟩
      · show 2 ^ k ≤ _
        omega
      · rw [Nat.pow_succ]; omega

/-- R11: `clz64(w)` is in 0..63 and normalizes w: bit 63 of w shifted left by it is 1. -/
theorem clz64_spec (w : Word) (h : w ≠ 0) :
    clz64 w < 64 ∧ 2 ^ 63 ≤ w.toNat * 2 ^ clz64 w ∧ w.toNat * 2 ^ clz64 w < 2 ^ 64 :=
  leadingZeros_spec w 64 (Nat.le_refl _) (fun h0 => h (BitVec.eq_of_toNat_eq (by simpa using h0))) w.isLt

end Sys2Proof.Machine
end

