-- ==== Sys2Proof/Laws/Division.lean ====
section
/-! SUPPORT. What the division loops compute: the single-word loop (41_single_word_division.md R172 to R175), and
Algorithm D digit by digit (42_multi_word_division.md R195 to R202, R204, R205) up to its quotient and remainder. -/

set_option exponentiation.threshold 600

namespace Sys2Proof.Machine

theorem toNat_ofNat_of_lt {n x : Nat} (h : x < 2 ^ n) : (BitVec.ofNat n x).toNat = x := by
  rw [BitVec.toNat_ofNat, Nat.mod_eq_of_lt h]

theorem two_pow_split {a b c : Nat} (h : a = b + c) : (2 : Nat) ^ a = 2 ^ b * 2 ^ c := by rw [h, Nat.pow_add]

/-- The low words of a number: word `i` on top of the words below it. -/
theorem mod_two_pow_succ_word (x i : Nat) :
    x % 2 ^ (64 * (i + 1)) = x / 2 ^ (64 * i) % 2 ^ 64 * 2 ^ (64 * i) + x % 2 ^ (64 * i) := by
  rw [two_pow_split (show 64 * (i + 1) = 64 * i + 64 by omega), Nat.mod_mul]
  ring

/-! ## The single-word loop -/

/-- R173, R174: with hi < d the quotient and the remainder each fit in one word. -/
theorem div128by64_spec (hi lo d : Word) (h : hi.toNat < d.toNat) :
    (div128by64 hi lo d).1.toNat = (hi.toNat * 2 ^ 64 + lo.toNat) / d.toNat ∧
      (div128by64 hi lo d).2.toNat = (hi.toNat * 2 ^ 64 + lo.toNat) % d.toNat ∧
      (div128by64 hi lo d).2.toNat < d.toNat := by
  have hd : 0 < d.toNat := by omega
  have hlo := lo.isLt
  have hmod : (hi.toNat * 2 ^ 64 + lo.toNat) % d.toNat < d.toNat := Nat.mod_lt _ hd
  have hdiv : (hi.toNat * 2 ^ 64 + lo.toNat) / d.toNat < 2 ^ 64 := by
    rw [Nat.div_lt_iff_lt_mul hd]
    have : (hi.toNat + 1) * 2 ^ 64 ≤ d.toNat * 2 ^ 64 := Nat.mul_le_mul_right _ h
    omega
  have e2 : (div128by64 hi lo d).2.toNat = (hi.toNat * 2 ^ 64 + lo.toNat) % d.toNat :=
    toNat_ofNat_of_lt (lt_trans hmod d.isLt)
  exact ⟨toNat_ofNat_of_lt hdiv, e2, e2 ▸ hmod⟩

/-- R175's induction: `k` words to do, running remainder r < d, quotient words filled above word k − 1. -/
theorem divsLoop_spec (x : Val512) (d : Word) (k : Nat) (hk : k ≤ 8) (q : Val512) (r : Word)
    (hr : r.toNat < d.toNat) (hq : q.toNat % 2 ^ (64 * k) = 0) :
    (divsLoop x d k (q, r)).1.toNat = q.toNat + (r.toNat * 2 ^ (64 * k) + x.toNat % 2 ^ (64 * k)) / d.toNat ∧
      (divsLoop x d k (q, r)).2.toNat = (r.toNat * 2 ^ (64 * k) + x.toNat % 2 ^ (64 * k)) % d.toNat := by
  induction k generalizing q r with
  | zero => simp [divsLoop, Nat.mod_one, Nat.div_eq_of_lt hr, Nat.mod_eq_of_lt hr]
  | succ i ih =>
    obtain ⟨e1, e2, hr'⟩ := div128by64_spec r (wordOf x i) d hr
    have eq' := toNat_setWord_of_low_zero q i (by omega) (div128by64 r (wordOf x i) d).1 hq
    obtain ⟨c, hc⟩ := Nat.dvd_of_mod_eq_zero hq
    have hq' : (setWord q i (div128by64 r (wordOf x i) d).1).toNat % 2 ^ (64 * i) = 0 := by
      rw [eq', hc, two_pow_split (show 64 * (i + 1) = 64 * i + 64 by omega), Nat.mul_assoc, Nat.add_mod,
        Nat.mul_mod_right, Nat.mul_mod_left, Nat.add_zero, Nat.zero_mod]
    have hd : 0 < d.toNat := by omega
    have key : r.toNat * 2 ^ (64 * (i + 1)) + x.toNat % 2 ^ (64 * (i + 1)) =
        ((div128by64 r (wordOf x i) d).2.toNat * 2 ^ (64 * i) + x.toNat % 2 ^ (64 * i))
          + d.toNat * ((div128by64 r (wordOf x i) d).1.toNat * 2 ^ (64 * i)) := by
      have hdm := Nat.div_add_mod (r.toNat * 2 ^ 64 + (wordOf x i).toNat) d.toNat
      rw [← e1, ← e2] at hdm
      rw [mod_two_pow_succ_word, ← toNat_wordOf, two_pow_split (show 64 * (i + 1) = 64 + 64 * i by omega)]
      calc r.toNat * (2 ^ 64 * 2 ^ (64 * i)) + ((wordOf x i).toNat * 2 ^ (64 * i) + x.toNat % 2 ^ (64 * i))
          = (r.toNat * 2 ^ 64 + (wordOf x i).toNat) * 2 ^ (64 * i) + x.toNat % 2 ^ (64 * i) := by ring
        _ = _ := by rw [← hdm]; ring
    obtain ⟨f1, f2⟩ := ih (by omega) _ _ hr' hq'
    have unf : divsLoop x d (i + 1) (q, r) =
        divsLoop x d i (setWord q i (div128by64 r (wordOf x i) d).1, (div128by64 r (wordOf x i) d).2) := rfl
    rw [unf, f1, f2, key, Nat.add_mul_div_left _ _ hd, Nat.add_mul_mod_self_left, eq']
    exact ⟨by omega, rfl⟩

/-- R175: the DIVS result law of DivsCore. -/
theorem divsCore_spec (x : Val512) (d : Word) (h : d ≠ 0) :
    (divsCore x d).1.toNat = x.toNat / d.toNat ∧ (divsCore x d).2.toNat = x.toNat % d.toNat := by
  have hd : 0 < d.toNat := Nat.pos_of_ne_zero fun h0 => h (BitVec.eq_of_toNat_eq (by simpa using h0))
  have h8 := divsLoop_spec x d 8 (Nat.le_refl _) 0 0 hd rfl
  have hx : x.toNat % 2 ^ (64 * 8) = x.toNat := Nat.mod_eq_of_lt x.isLt
  rw [hx, show (0 : Word).toNat = 0 from rfl, show (0 : Val512).toNat = 0 from rfl, Nat.zero_mul, Nat.zero_add,
    Nat.zero_add] at h8
  exact h8

/-! ## Algorithm D, one digit

`W` is the window, `V` the normalized divisor, `P` and `P'` the weights of the divisor's top two words. -/

/-- R197, R205: the capped estimate is at least the digit and at most two above it. -/
theorem estimate_bounds (W V P vTop num : Nat) (hV : vTop * P ≤ V) (hV' : V < (vTop + 1) * P)
    (hW : num * P ≤ W) (hW' : W < (num + 1) * P) (hnorm : 2 ^ 63 ≤ vTop) (hdigit : W < V * 2 ^ 64) :
    W / V ≤ (estimate num vTop).1 ∧ (estimate num vTop).1 ≤ W / V + 2 ∧ (estimate num vTop).1 < 2 ^ 64 ∧
      (estimate num vTop).1 * vTop + (estimate num vTop).2 = num := by
  have hPpos : 0 < P := by rcases Nat.eq_zero_or_pos P with h | h; · subst h; omega
                           · exact h
  have hVpos : 0 < V := by rcases Nat.eq_zero_or_pos V with h | h; · subst h; omega
                           · exact h
  set q := W / V with hq
  have hqV : q * V ≤ W := Nat.div_mul_le_self W V
  have hWq : W < (q + 1) * V := by rw [Nat.add_mul, Nat.one_mul]; exact Nat.lt_div_mul_add hVpos
  have hqb : q < 2 ^ 64 := (Nat.div_lt_iff_lt_mul hVpos).mpr (by rw [Nat.mul_comm]; exact hdigit)
  have hge : q ≤ num / vTop := by
    rw [Nat.le_div_iff_mul_le (by omega)]
    have h1 : q * vTop * P ≤ q * V := by rw [Nat.mul_assoc]; exact Nat.mul_le_mul_left _ hV
    have h2 : q * vTop * P < (num + 1) * P := by omega
    have := Nat.lt_of_mul_lt_mul_right h2
    omega
  have hest : (estimate num vTop).1 = min (num / vTop) (2 ^ 64 - 1) := rfl
  set e := (estimate num vTop).1 with he
  have hle1 : e ≤ num / vTop := hest ▸ Nat.min_le_left _ _
  have hle2 : e ≤ 2 ^ 64 - 1 := hest ▸ Nat.min_le_right _ _
  have hmul : e * vTop ≤ num := le_trans (Nat.mul_le_mul_right _ hle1) (Nat.div_mul_le_self _ _)
  refine ⟨by rw [hest]; exact le_min hge (by omega), ?_, by omega, ?_⟩
  · have h1 : e * V ≤ e * ((vTop + 1) * P) := Nat.mul_le_mul_left _ (le_of_lt hV')
    have h2 : e * ((vTop + 1) * P) = e * vTop * P + e * P := by ring
    have h3 : e * vTop * P ≤ num * P := Nat.mul_le_mul_right _ hmul
    have h4 : e * P < 2 ^ 64 * P := Nat.mul_lt_mul_of_pos_right (by omega) hPpos
    have h5 : 2 ^ 64 * P ≤ 2 * (vTop * P) := by
      rw [← Nat.mul_assoc]; exact Nat.mul_le_mul_right _ (by omega)
    have h6 : (q + 1) * V + 2 * V = (q + 3) * V := by ring
    have h7 : e * V < (q + 3) * V := by omega
    have := Nat.lt_of_mul_lt_mul_right h7
    omega
  · have : (estimate num vTop).2 = num - e * vTop := rfl
    omega

/-- R198: a decrement never goes below the digit. -/
theorem refineTest_gt (W V P' vTop vNext num uNext : Nat) (p : Nat × Nat)
    (hV : (vTop * 2 ^ 64 + vNext) * P' ≤ V) (hW' : W < (num * 2 ^ 64 + uNext + 1) * P')
    (hp : p.1 * vTop + p.2 = num) (ht : refineTest vNext uNext p = true) : W / V < p.1 := by
  simp only [refineTest, decide_eq_true_eq] at ht
  by_contra hge
  have h1 : p.1 * V ≤ W := le_trans (Nat.mul_le_mul_right _ (by omega)) (Nat.div_mul_le_self W V)
  have h2 : p.1 * (vTop * 2 ^ 64 + vNext) * P' ≤ p.1 * V := by rw [Nat.mul_assoc]; exact Nat.mul_le_mul_left _ hV
  have h3 := Nat.lt_of_mul_lt_mul_right (lt_of_le_of_lt (le_trans h2 h1) hW')
  have h4 : p.1 * (vTop * 2 ^ 64 + vNext) = p.1 * vTop * 2 ^ 64 + p.1 * vNext := by ring
  have h5 : num * 2 ^ 64 = p.1 * vTop * 2 ^ 64 + p.2 * 2 ^ 64 := by rw [← hp]; ring
  omega

/-- R205: where the loop test fails, the trial digit is at most one above the digit. -/
theorem le_of_not_refineTest (W V P' vTop vNext num uNext : Nat) (p : Nat × Nat)
    (hVpos : 0 < V) (hV' : V < (vTop * 2 ^ 64 + vNext + 1) * P')
    (hVtop : V < (vTop + 1) * (2 ^ 64 * P')) (hPV : 2 ^ 64 * P' ≤ V)
    (hW : (num * 2 ^ 64 + uNext) * P' ≤ W) (hp : p.1 * vTop + p.2 = num) (hb : p.1 < 2 ^ 64)
    (ht : refineTest vNext uNext p = false) : p.1 ≤ W / V + 1 := by
  have hWq : W < (W / V + 1) * V := by rw [Nat.add_mul, Nat.one_mul]; exact Nat.lt_div_mul_add hVpos
  have hP'pos : 0 < P' := by rcases Nat.eq_zero_or_pos P' with h | h; · subst h; omega
                             · exact h
  suffices h : p.1 * V < (W / V + 2) * V by
    have := Nat.lt_of_mul_lt_mul_right h
    omega
  have e : (W / V + 2) * V = (W / V + 1) * V + V := by ring
  by_cases hr : p.2 < 2 ^ 64
  · have ht' : p.1 * vNext ≤ p.2 * 2 ^ 64 + uNext := by
      simp only [refineTest, decide_eq_false_iff_not, not_and, not_lt] at ht
      exact ht hr
    have h1 : p.1 * V ≤ p.1 * ((vTop * 2 ^ 64 + vNext + 1) * P') := Nat.mul_le_mul_left _ (le_of_lt hV')
    have h2 : p.1 * ((vTop * 2 ^ 64 + vNext + 1) * P') =
        (p.1 * vTop * 2 ^ 64 + p.1 * vNext) * P' + p.1 * P' := by ring
    have h3 : (p.1 * vTop * 2 ^ 64 + p.1 * vNext) * P' ≤ (num * 2 ^ 64 + uNext) * P' := by
      apply Nat.mul_le_mul_right
      have : num * 2 ^ 64 = p.1 * vTop * 2 ^ 64 + p.2 * 2 ^ 64 := by rw [← hp]; ring
      omega
    have h4 : p.1 * P' < 2 ^ 64 * P' := Nat.mul_lt_mul_of_pos_right hb hP'pos
    omega
  · have h1 : p.1 * V ≤ p.1 * ((vTop + 1) * (2 ^ 64 * P')) := Nat.mul_le_mul_left _ (le_of_lt hVtop)
    have h2 : p.1 * ((vTop + 1) * (2 ^ 64 * P')) = (p.1 * vTop + p.1) * 2 ^ 64 * P' := by ring
    have h3 : (p.1 * vTop + p.1) * 2 ^ 64 * P' ≤ (num * 2 ^ 64 + uNext) * P' := by
      apply Nat.mul_le_mul_right
      have : (p.1 * vTop + p.1) * 2 ^ 64 ≤ num * 2 ^ 64 := Nat.mul_le_mul_right _ (by omega)
      exact le_trans this (Nat.le_add_right _ _)
    calc p.1 * V ≤ W := le_trans h1 (le_trans (le_of_eq h2) (le_trans h3 hW))
      _ < (W / V + 1) * V := hWq
      _ ≤ _ := by rw [e]; exact Nat.le_add_right _ _

/-- R198: what any number of rounds of the loop keep. -/
theorem refine_spec (W V P' vTop vNext num uNext : Nat) (hV : (vTop * 2 ^ 64 + vNext) * P' ≤ V)
    (hW' : W < (num * 2 ^ 64 + uNext + 1) * P') (fuel : Nat) (p : Nat × Nat)
    (hp : p.1 * vTop + p.2 = num) (hge : W / V ≤ p.1) :
    W / V ≤ (refine vTop vNext uNext fuel p).1 ∧ (refine vTop vNext uNext fuel p).1 ≤ p.1 ∧
      (refine vTop vNext uNext fuel p).1 * vTop + (refine vTop vNext uNext fuel p).2 = num := by
  induction fuel generalizing p with
  | zero => exact ⟨hge, Nat.le_refl _, hp⟩
  | succ fuel ih =>
    unfold refine
    split
    · rename_i ht
      have hgt := refineTest_gt W V P' vTop vNext num uNext p hV hW' hp ht
      have hp' : (p.1 - 1) * vTop + (p.2 + vTop) = num := by
        obtain ⟨m, hm⟩ : ∃ m, p.1 = m + 1 := ⟨p.1 - 1, (Nat.succ_pred_eq_of_pos (Nat.zero_lt_of_lt hgt)).symm⟩
        rw [hm] at hp ⊢
        have : (m + 1) * vTop = m * vTop + vTop := by ring
        simp only [Nat.add_sub_cancel]
        omega
      obtain ⟨h1, h2, h3⟩ := ih (p.1 - 1, p.2 + vTop) hp' (Nat.le_sub_one_of_lt hgt)
      simp only at h2
      exact ⟨h1, by omega, h3⟩
    · exact ⟨hge, Nat.le_refl _, hp⟩

/-- R198: "The loop body runs at most twice": after two rounds the loop test fails. -/
theorem refine_settles (vTop vNext uNext : Nat) (hnorm : 2 ^ 63 ≤ vTop) (p : Nat × Nat) :
    refineTest vNext uNext (refine vTop vNext uNext refineFuel p) = false := by
  simp only [refineFuel, refine]
  split
  · split
    · simp only [refineTest, decide_eq_false_iff_not]
      omega
    · rename_i h; simpa using h
  · rename_i h; simpa using h

/-- R200: at most two add-backs leave the digit and the partial remainder. -/
theorem correct_spec (W V qHat : Nat) (hV : 0 < V) (h1 : W / V ≤ qHat) (h2 : qHat ≤ W / V + 2) :
    correct V (qHat, mulSub W qHat V) = (W / V, ((W % V : Nat) : Int)) := by
  have hdm : (W : Int) = V * (W / V : Nat) + (W % V : Nat) := by exact_mod_cast (Nat.div_add_mod W V).symm
  have hm : ((W % V : Nat) : Int) < V := by exact_mod_cast Nat.mod_lt W hV
  have hV' : (0 : Int) < V := by exact_mod_cast hV
  set q := W / V
  set r := W % V
  have hr0 : (0 : Int) ≤ (r : Int) := by omega
  obtain h | h | h : qHat = q ∨ qHat = q + 1 ∨ qHat = q + 2 := by omega
  · have e : mulSub W qHat V = (r : Int) := by
      simp only [mulSub, h, hdm]; ring
    have t : ¬ ((r : Int) < 0) := by omega
    rw [h] at e ⊢
    simp only [correct, addBack, e, if_neg t]
  · have e : mulSub W qHat V = (r : Int) - V := by
      simp only [mulSub, h, hdm]; push_cast; ring
    have t1 : (r : Int) - V < 0 := by omega
    have t2 : ¬ ((r : Int) < 0) := by omega
    have t3 : (r : Int) - V + V = r := by ring
    rw [h] at e ⊢
    simp only [correct, addBack, e, if_pos t1, t3, if_neg t2, Nat.add_sub_cancel]
  · have e : mulSub W qHat V = (r : Int) - 2 * V := by
      simp only [mulSub, h, hdm]; push_cast; ring
    have t1 : (r : Int) - 2 * V < 0 := by omega
    have t2 : (r : Int) - 2 * V + V < 0 := by omega
    have t3 : (r : Int) - 2 * V + V + V = r := by ring
    rw [h] at e ⊢
    simp only [correct, addBack, e, if_pos t1, if_pos t2, t3]
    rfl

/-! ## Algorithm D, the digit loop -/

theorem le_576 {j n : Nat} (h : j + n ≤ 8) : 64 * (n + 1) + 64 * j ≤ 576 := by omega

theorem mul_add_lt {r v b l : Nat} (hr : r < v) (hl : l < b) : r * b + l < v * b := by
  have h1 : (r + 1) * b ≤ v * b := Nat.mul_le_mul_right _ hr
  rw [Nat.add_mul, Nat.one_mul] at h1
  omega

/-- A wide value from word `k` up: the words above, then word `k`. -/
theorem div_word_succ {n : Nat} (x : BitVec n) (k : Nat) :
    x.toNat / 2 ^ (64 * k) = x.toNat / 2 ^ (64 * (k + 1)) * 2 ^ 64 + (wordOf x k).toNat := by
  rw [toNat_wordOf, two_pow_split (show 64 * (k + 1) = 64 * k + 64 by omega), ← Nat.div_div_eq_div_mul]
  exact (Nat.div_add_mod' _ _).symm

theorem toNat_wordOf_top {n : Nat} (x : BitVec n) (k : Nat) (h : x.toNat < 2 ^ (64 * (k + 1))) :
    (wordOf x k).toNat = x.toNat / 2 ^ (64 * k) := by
  have := div_word_succ x k
  rw [(Nat.div_eq_zero_iff_lt (Nat.two_pow_pos _)).mpr h] at this
  omega

theorem lt_div_succ_mul (x p : Nat) (h : 0 < p) : x < (x / p + 1) * p := by
  rw [Nat.add_mul, Nat.one_mul]; exact Nat.lt_div_mul_add h

/-- What the loop keeps about the normalized divisor: n words, the top one with bit 63 set (R195). -/
structure Normalized (v : Val512) (n : Nat) : Prop where
  two_le : 2 ≤ n
  lt : v.toNat < 2 ^ (64 * n)
  le : 2 ^ 63 * 2 ^ (64 * (n - 1)) ≤ v.toNat

theorem Normalized.pos {v : Val512} {n : Nat} (h : Normalized v n) : 0 < v.toNat :=
  lt_of_lt_of_le (Nat.mul_pos (by decide) (Nat.two_pow_pos _)) h.le

/-- The window value at position j is the working dividend shifted down by j words. -/
theorem div_lt_of_digit {u : Val576} {v : Val512} {j : Nat} (hu : u.toNat < v.toNat * 2 ^ (64 * (j + 1))) :
    u.toNat / 2 ^ (64 * j) < v.toNat * 2 ^ 64 := by
  rw [Nat.div_lt_iff_lt_mul (Nat.two_pow_pos _), Nat.mul_assoc,
    ← two_pow_split (show 64 * (j + 1) = 64 + 64 * j by omega)]
  exact hu

theorem window_eq {u : Val576} {v : Val512} {n j : Nat} (hv : Normalized v n)
    (hu : u.toNat < v.toNat * 2 ^ (64 * (j + 1))) : window u j n = u.toNat / 2 ^ (64 * j) := by
  have h1 := div_lt_of_digit hu
  have h2 : v.toNat * 2 ^ 64 ≤ 2 ^ (64 * n) * 2 ^ 64 := Nat.mul_le_mul_right _ (le_of_lt hv.lt)
  rw [← two_pow_split (show 64 * (n + 1) = 64 * n + 64 by omega)] at h2
  rw [window, Nat.shiftRight_eq_div_pow, Nat.mod_eq_of_lt (lt_of_lt_of_le h1 h2)]

/-- R204, R205: the trial digit after refinement is the window's digit or one above it. -/
theorem trialDigit_bounds {u : Val576} {v : Val512} {n j : Nat} (hv : Normalized v n)
    (hu : u.toNat < v.toNat * 2 ^ (64 * (j + 1))) :
    u.toNat / 2 ^ (64 * j) / v.toNat ≤ (trialDigit u v n j).1 ∧
      (trialDigit u v n j).1 ≤ u.toNat / 2 ^ (64 * j) / v.toNat + 1 := by
  obtain ⟨k, rfl⟩ : ∃ k, n = k + 2 := ⟨n - 2, by have := hv.two_le; omega⟩
  have hWdig := div_lt_of_digit hu
  have hWlt : u.toNat < 2 ^ (64 * (j + (k + 2) + 1)) := by
    refine lt_of_lt_of_le hu (le_trans (Nat.mul_le_mul_right _ (le_of_lt hv.lt)) (le_of_eq ?_))
    rw [← Nat.pow_add]; congr 1; omega
  have hle := hv.le
  set W := u.toNat / 2 ^ (64 * j) with hWdef
  -- the top words of the divisor
  have hvTop : (wordOf v (k + 1)).toNat = v.toNat / 2 ^ (64 * (k + 1)) := toNat_wordOf_top v (k + 1) hv.lt
  have hvNext := div_word_succ v k
  rw [← hvTop] at hvNext
  -- the top words of the window
  have hWk : ∀ i, u.toNat / 2 ^ (64 * (j + i)) = W / 2 ^ (64 * i) := fun i => by
    rw [hWdef, Nat.div_div_eq_div_mul, two_pow_split (show 64 * (j + i) = 64 * j + 64 * i by omega)]
  have hTop := toNat_wordOf_top u (j + (k + 2)) hWlt
  have hnum := div_word_succ u (j + (k + 1))
  rw [show j + (k + 1) + 1 = j + (k + 2) by omega, ← hTop, hWk] at hnum
  have hnext := div_word_succ u (j + k)
  rw [show j + k + 1 = j + (k + 1) by omega, hWk, hWk, hnum] at hnext
  have hvk := lt_div_succ_mul v.toNat (2 ^ (64 * (k + 1))) (Nat.two_pow_pos _)
  have hvk' := Nat.div_mul_le_self v.toNat (2 ^ (64 * (k + 1)))
  have hv0 := lt_div_succ_mul v.toNat (2 ^ (64 * k)) (Nat.two_pow_pos _)
  have hv0' := Nat.div_mul_le_self v.toNat (2 ^ (64 * k))
  have hw := lt_div_succ_mul W (2 ^ (64 * (k + 1))) (Nat.two_pow_pos _)
  have hw' := Nat.div_mul_le_self W (2 ^ (64 * (k + 1)))
  have hw0 := lt_div_succ_mul W (2 ^ (64 * k)) (Nat.two_pow_pos _)
  have hw0' := Nat.div_mul_le_self W (2 ^ (64 * k))
  rw [← hvTop] at hvk hvk'
  rw [hvNext] at hv0 hv0'
  rw [hnum] at hw hw'
  rw [hnext] at hw0 hw0'
  have hP : (2 : Nat) ^ (64 * (k + 1)) = 2 ^ 64 * 2 ^ (64 * k) := two_pow_split (by omega)
  have hnorm : 2 ^ 63 ≤ (wordOf v (k + 1)).toNat := by
    rw [hvTop, Nat.le_div_iff_mul_le (Nat.two_pow_pos _)]; exact hle
  have hPV : 2 ^ 64 * 2 ^ (64 * k) ≤ v.toNat := by
    rw [← hP]; exact le_trans (Nat.le_mul_of_pos_left _ (by decide)) hle
  have ht : (trialDigit u v (k + 2) j) =
      refine (wordOf v (k + 1)).toNat (wordOf v k).toNat (wordOf u (j + k)).toNat refineFuel
        (estimate ((wordOf u (j + (k + 2))).toNat * 2 ^ 64 + (wordOf u (j + (k + 1))).toNat)
          (wordOf v (k + 1)).toNat) := rfl
  obtain ⟨e1, -, e3, e4⟩ := estimate_bounds W v.toNat _ _ _ hvk' hvk hw' hw hnorm hWdig
  obtain ⟨r1, r2, r3⟩ := refine_spec W v.toNat _ _ _ _ _ hv0' hw0 refineFuel _ e4 e1
  rw [ht]
  exact ⟨r1, le_of_not_refineTest W v.toNat _ _ _ _ _ _ hv.pos hv0 (hP ▸ hvk) hPV hw0' r3
    (lt_of_le_of_lt r2 e3) (refine_settles _ _ _ hnorm _)⟩

/-- R196: one round, its pieces named. -/
theorem digitStep_eq (v : Val512) (n j : Nat) (w : LongWork) :
    digitStep v n j w =
      { q := setWord w.q j (BitVec.ofNat 64 (correct v.toNat ((trialDigit w.u v n j).1,
          mulSub (window w.u j n) (trialDigit w.u v n j).1 v.toNat)).1),
        u := setWindow w.u j n (correct v.toNat ((trialDigit w.u v n j).1,
          mulSub (window w.u j n) (trialDigit w.u v n j).1 v.toNat)).2 } := by simp only [digitStep]

/-- R201, R204: one round stores the exact digit and leaves the partial remainder. -/
theorem digitStep_spec {v : Val512} {n j : Nat} {w : LongWork} (hv : Normalized v n) (hj : j + n ≤ 8)
    (hu : w.u.toNat < v.toNat * 2 ^ (64 * (j + 1))) (hq : w.q.toNat % 2 ^ (64 * (j + 1)) = 0) :
    (digitStep v n j w).q.toNat = w.q.toNat + w.u.toNat / 2 ^ (64 * j) / v.toNat * 2 ^ (64 * j) ∧
      (digitStep v n j w).u.toNat =
        w.u.toNat / 2 ^ (64 * j) % v.toNat * 2 ^ (64 * j) + w.u.toNat % 2 ^ (64 * j) := by
  have hn := hv.two_le
  have hwin := window_eq hv hu
  have hdig := div_lt_of_digit hu
  obtain ⟨t1, t2⟩ := trialDigit_bounds hv hu
  have hc := correct_spec (w.u.toNat / 2 ^ (64 * j)) v.toNat (trialDigit w.u v n j).1 hv.pos t1 (by omega)
  have hqlt : w.u.toNat / 2 ^ (64 * j) / v.toNat < 2 ^ 64 :=
    (Nat.div_lt_iff_lt_mul hv.pos).mpr (lt_of_lt_of_eq hdig (Nat.mul_comm _ _))
  have hrlt : w.u.toNat / 2 ^ (64 * j) % v.toNat < 2 ^ (64 * (n + 1)) :=
    lt_trans (lt_trans (Nat.mod_lt _ hv.pos) hv.lt) (Nat.pow_lt_pow_right (by decide) (by omega))
  rw [digitStep_eq, hwin, hc]
  refine ⟨?_, ?_⟩
  · simp only
    rw [toNat_setWord_of_low_zero _ _ (by omega) _ hq, toNat_ofNat_of_lt hqlt]
  · have hhigh : w.u.toNat / 2 ^ (64 * (j + n + 1)) = 0 := by
      rw [Nat.div_eq_zero_iff_lt (Nat.two_pow_pos _)]
      refine lt_of_lt_of_le hu (le_trans (Nat.mul_le_mul_right _ (le_of_lt hv.lt)) (le_of_eq ?_))
      rw [← Nat.pow_add]; congr 1; omega
    have hint : (((w.u.toNat / 2 ^ (64 * j) % v.toNat : Nat) : Int) % 2 ^ (64 * (n + 1))).toNat =
        w.u.toNat / 2 ^ (64 * j) % v.toNat := by
      rw [Int.emod_eq_of_lt (by omega) (by exact_mod_cast hrlt)]
      exact Int.toNat_natCast _
    have hsum : w.u.toNat / 2 ^ (64 * j) % v.toNat * 2 ^ (64 * j) + w.u.toNat % 2 ^ (64 * j) < 2 ^ 576 := by
      refine lt_of_lt_of_le (mul_add_lt hrlt (Nat.mod_lt _ (Nat.two_pow_pos _))) ?_
      rw [← Nat.pow_add]
      exact Nat.pow_le_pow_right (by decide) (le_576 hj)
    simp only [setWindow]
    rw [hint, hhigh, Nat.zero_mul, Nat.add_zero, Nat.add_comm, toNat_ofNat_of_lt hsum]

theorem digitLoop_zero (v : Val512) (n : Nat) (w : LongWork) : digitLoop v n 0 w = w := rfl

theorem digitLoop_succ (v : Val512) (n j : Nat) (w : LongWork) :
    digitLoop v n (j + 1) w = digitLoop v n j (digitStep v n j w) := by rw [digitLoop]

/-- R204: the loop computes quotient and remainder of the working dividend by the normalized divisor. -/
theorem digitLoop_spec {v : Val512} {n : Nat} (hv : Normalized v n) (k : Nat) (hk : k + n ≤ 9) (w : LongWork)
    (hu : w.u.toNat < v.toNat * 2 ^ (64 * k)) (hq : w.q.toNat % 2 ^ (64 * k) = 0) :
    (digitLoop v n k w).u.toNat < v.toNat ∧
      (digitLoop v n k w).q.toNat * v.toNat + (digitLoop v n k w).u.toNat = w.q.toNat * v.toNat + w.u.toNat := by
  induction k generalizing w with
  | zero =>
    rw [Nat.mul_zero, Nat.pow_zero, Nat.mul_one] at hu
    rw [digitLoop_zero]
    exact ⟨hu, rfl⟩
  | succ j ih =>
    obtain ⟨e1, e2⟩ := digitStep_spec hv (by omega) hu hq
    have hu' : (digitStep v n j w).u.toNat < v.toNat * 2 ^ (64 * j) := by
      rw [e2]; exact mul_add_lt (Nat.mod_lt _ hv.pos) (Nat.mod_lt _ (Nat.two_pow_pos _))
    have hq' : (digitStep v n j w).q.toNat % 2 ^ (64 * j) = 0 := by
      obtain ⟨c, hc⟩ := Nat.dvd_of_mod_eq_zero hq
      rw [e1, hc, two_pow_split (show 64 * (j + 1) = 64 * j + 64 by omega), Nat.mul_assoc, Nat.add_mod,
        Nat.mul_mod_right, Nat.mul_mod_left, Nat.add_zero, Nat.zero_mod]
    obtain ⟨f1, f2⟩ := ih (by omega) (digitStep v n j w) hu' hq'
    rw [digitLoop_succ]
    refine ⟨f1, ?_⟩
    rw [f2, e1, e2]
    have h1 := Nat.div_add_mod (w.u.toNat / 2 ^ (64 * j)) v.toNat
    have h2 := Nat.div_add_mod w.u.toNat (2 ^ (64 * j))
    calc (w.q.toNat + w.u.toNat / 2 ^ (64 * j) / v.toNat * 2 ^ (64 * j)) * v.toNat
          + (w.u.toNat / 2 ^ (64 * j) % v.toNat * 2 ^ (64 * j) + w.u.toNat % 2 ^ (64 * j))
        = w.q.toNat * v.toNat + (2 ^ (64 * j) * (v.toNat * (w.u.toNat / 2 ^ (64 * j) / v.toNat)
          + w.u.toNat / 2 ^ (64 * j) % v.toNat) + w.u.toNat % 2 ^ (64 * j)) := by ring
      _ = _ := by rw [h1, h2]

/-! ## Algorithm D, whole -/

/-- R195: the normalized divisor is B · 2^f, and it is normalized. -/
theorem normDivisor_spec (b : Val512) (hb : b ≠ 0) :
    normShift b < 64 ∧ (normDivisor b).toNat = b.toNat * 2 ^ normShift b ∧
      b.toNat * 2 ^ normShift b < 2 ^ (64 * sigWidth b) ∧
      2 ^ 63 * 2 ^ (64 * (sigWidth b - 1)) ≤ b.toNat * 2 ^ normShift b := by
  have hn := sigWidth_pos b hb
  have hn8 := sigWidth_le b
  obtain ⟨c1, c2, c3⟩ := clz64_spec _ (wordOf_sigWidth_ne_zero b hb)
  have hf : normShift b = clz64 (wordOf b (sigWidth b - 1)) := rfl
  rw [← hf] at c1 c2 c3
  have htop := toNat_wordOf_top b (sigWidth b - 1)
    (by rw [show sigWidth b - 1 + 1 = sigWidth b by omega]; exact lt_sigWidth b)
  rw [htop] at c2 c3
  set f := normShift b
  set n := sigWidth b
  have hsplit : (2 : Nat) ^ 64 = 2 ^ (64 - f) * 2 ^ f := two_pow_split (by omega)
  have hup : b.toNat * 2 ^ f < 2 ^ (64 * n) := by
    have h1 : b.toNat / 2 ^ (64 * (n - 1)) < 2 ^ (64 - f) := by
      rw [hsplit] at c3; exact Nat.lt_of_mul_lt_mul_right c3
    have h2 := lt_div_succ_mul b.toNat (2 ^ (64 * (n - 1))) (Nat.two_pow_pos _)
    have h3 : b.toNat < 2 ^ (64 - f) * 2 ^ (64 * (n - 1)) :=
      lt_of_lt_of_le h2 (Nat.mul_le_mul_right _ h1)
    calc b.toNat * 2 ^ f < 2 ^ (64 - f) * 2 ^ (64 * (n - 1)) * 2 ^ f :=
          Nat.mul_lt_mul_of_pos_right h3 (Nat.two_pow_pos _)
      _ = 2 ^ 64 * 2 ^ (64 * (n - 1)) := by rw [hsplit]; ring
      _ = 2 ^ (64 * n) := by rw [← Nat.pow_add]; congr 1; omega
  refine ⟨c1, ?_, hup, ?_⟩
  · rw [normDivisor, BitVec.toNat_shiftLeft, Nat.shiftLeft_eq]
    exact Nat.mod_eq_of_lt (lt_of_lt_of_le hup (Nat.pow_le_pow_right (by decide) (by omega)))
  · have h1 := Nat.div_mul_le_self b.toNat (2 ^ (64 * (n - 1)))
    calc 2 ^ 63 * 2 ^ (64 * (n - 1)) ≤ b.toNat / 2 ^ (64 * (n - 1)) * 2 ^ f * 2 ^ (64 * (n - 1)) :=
          Nat.mul_le_mul_right _ c2
      _ = b.toNat / 2 ^ (64 * (n - 1)) * 2 ^ (64 * (n - 1)) * 2 ^ f := by ring
      _ ≤ b.toNat * 2 ^ f := Nat.mul_le_mul_right _ h1

/-- R191 for Algorithm D: with a divisor of two or more words and A ≥ B, the floor quotient and remainder. -/
theorem algD_spec (a b : Val512) (hb : 2 ≤ sigWidth b) (hab : b.toNat ≤ a.toNat) :
    (algD a b).1.toNat = a.toNat / b.toNat ∧ (algD a b).2.toNat = a.toNat % b.toNat := by
  have hb0 : b ≠ 0 := by rintro rfl; exact absurd hb (by decide +kernel)
  have hbpos : 0 < b.toNat := Nat.pos_of_ne_zero fun h => hb0 (BitVec.eq_of_toNat_eq (by simpa using h))
  obtain ⟨d1, d2, d3, d4⟩ := normDivisor_spec b hb0
  have hm := sigWidth_mono a b hb0 hab
  have hm8 := sigWidth_le a
  have ha := lt_sigWidth a
  set f := normShift b with hf
  set n := sigWidth b
  set m := sigWidth a
  have hnv : Normalized (normDivisor b) n := ⟨hb, d2 ▸ d3, d2 ▸ d4⟩
  have hF : (2 : Nat) ^ f ≤ 2 ^ 63 := Nat.pow_le_pow_right (by decide) (by omega)
  have hA : a.toNat * 2 ^ f < 2 ^ (64 * m) * 2 ^ 63 :=
    lt_of_lt_of_le (Nat.mul_lt_mul_of_pos_right ha (Nat.two_pow_pos _)) (Nat.mul_le_mul_left _ hF)
  have hu : (normDividend a f).toNat = a.toNat * 2 ^ f := by
    have h1 : a.toNat < 2 ^ 576 := lt_of_lt_of_le a.isLt (Nat.pow_le_pow_right (by decide) (by decide))
    have h2 : (2 : Nat) ^ (64 * m) * 2 ^ 63 ≤ 2 ^ 576 := by
      rw [← Nat.pow_add]; exact Nat.pow_le_pow_right (by decide) (by omega)
    rw [normDividend, BitVec.toNat_shiftLeft, BitVec.toNat_setWidth, Nat.shiftLeft_eq, Nat.mod_eq_of_lt h1]
    exact Nat.mod_eq_of_lt (lt_of_lt_of_le hA h2)
  have hstart : (normDividend a f).toNat < (normDivisor b).toNat * 2 ^ (64 * (m - n + 1)) := by
    rw [hu]
    refine lt_of_lt_of_le hA (le_trans (le_of_eq ?_) (Nat.mul_le_mul_right _ hnv.le))
    rw [← Nat.pow_add, ← Nat.pow_add, ← Nat.pow_add]; congr 1; omega
  obtain ⟨l1, l2⟩ := digitLoop_spec hnv (m - n + 1) (by omega) ⟨0, normDividend a f⟩ hstart (Nat.zero_mod _)
  have hwork : algDWork a b = digitLoop (normDivisor b) n (m - n + 1) ⟨0, normDividend a f⟩ := rfl
  rw [← hwork] at l1 l2
  have hq : (algDWork a b).q.toNat = a.toNat / b.toNat ∧ (algDWork a b).u.toNat = a.toNat % b.toNat * 2 ^ f := by
    rw [d2] at l1 l2
    simp only [hu] at l2
    rw [show (0 : Val512).toNat = 0 from rfl, Nat.zero_mul, Nat.zero_add] at l2
    have hpos : 0 < b.toNat * 2 ^ f := Nat.mul_pos hbpos (Nat.two_pow_pos _)
    refine ⟨?_, ?_⟩
    · have := Nat.mul_div_mul_right a.toNat b.toNat (Nat.two_pow_pos f)
      rw [← this, ← l2, Nat.add_comm, Nat.add_mul_div_right _ _ hpos, Nat.div_eq_of_lt l1, Nat.zero_add]
    · rw [← Nat.mul_mod_mul_right, ← l2, Nat.add_comm, Nat.add_mul_mod_self_right, Nat.mod_eq_of_lt l1]
  refine ⟨hq.1, ?_⟩
  have hden : (algD a b).2 = denormalize (algDWork a b).u n f := rfl
  rw [hden, denormalize, Nat.mod_eq_of_lt (lt_trans l1 hnv.lt), hq.2, Nat.shiftRight_eq_div_pow,
    Nat.mul_div_cancel _ (Nat.two_pow_pos _)]
  exact toNat_ofNat_of_lt (lt_of_le_of_lt (Nat.mod_le _ _) a.isLt)

/-- R190, R191: every case of DIV with B ≠ 0 gives the floor quotient and remainder. -/
theorem longDivide_spec (a b : Val512) (hb : b ≠ 0) :
    (longDivide a b).1.toNat = a.toNat / b.toNat ∧ (longDivide a b).2.toNat = a.toNat % b.toNat := by
  unfold longDivide
  split
  · rename_i h
    exact ⟨by simp [Nat.div_eq_of_lt h], (Nat.mod_eq_of_lt h).symm⟩
  · rename_i hge
    split
    · rename_i h1
      have hw : (wordOf b 0).toNat = b.toNat := by
        rw [toNat_wordOf_top b 0 (by have := lt_sigWidth b; rwa [h1] at this)]; simp
      have hw0 : wordOf b 0 ≠ 0 := fun h => hb (BitVec.eq_of_toNat_eq (by rw [← hw, h]; rfl))
      obtain ⟨e1, e2⟩ := divsCore_spec a (wordOf b 0) hw0
      rw [hw] at e1 e2
      refine ⟨e1, ?_⟩
      show ((divsCore a (wordOf b 0)).2.setWidth 512).toNat = _
      rw [BitVec.toNat_setWidth, e2]
      exact Nat.mod_eq_of_lt (lt_of_le_of_lt (Nat.mod_le _ _) a.isLt)
    · rename_i h1
      have := sigWidth_pos b hb
      exact algD_spec a b (by omega) (by omega)

end Sys2Proof.Machine
end

