-- ==== Sys2Proof/Laws/PerInstr.lean ====
section
/-! SUPPORT. The per-instruction family of LAWS.json: every command's word is legal and keeps its reserved bits zero
(30_encoding.md R90, R93). -/

namespace Sys2Proof.Laws.EncodeLegal

/-- R90, R93: the command word of `i` is legal, RSV is 0 and OP is the command's. -/
def Statement (i : Instr) : Prop :=
  legalWord (encode i) = true ∧ fieldRsv (encode i) = 0 ∧ fieldBin (encode i) = binOf i ∧ fieldOp (encode i) = opOf i

theorem div : Statement .div := by unfold Statement; decide +kernel
theorem divs : Statement .divs := by unfold Statement; decide +kernel
theorem shl : Statement .shl := by unfold Statement; decide +kernel
theorem shr : Statement .shr := by unfold Statement; decide +kernel
theorem cmps : Statement .cmps := by unfold Statement; decide +kernel
theorem cmp : Statement .cmp := by unfold Statement; decide +kernel

theorem subb (bin : BitVec 1) : Statement (.subb bin) := by
  revert bin
  unfold Statement
  decide +kernel

end Sys2Proof.Laws.EncodeLegal
end

