-- ==== Sys2Proof/Laws/State.lean ====
section
/-! SUPPORT. One lemma per field per update of State, and per flag per update of STATUS: what each named operation of
Ops.lean and Flags.lean leaves in it. -/

namespace Sys2Proof.Machine

@[simp] theorem accept_opa (s : State) (c : Word) : (accept s c).opa = s.opa := rfl
@[simp] theorem accept_opb (s : State) (c : Word) : (accept s c).opb = s.opb := rfl
@[simp] theorem accept_scl (s : State) (c : Word) : (accept s c).scl = s.scl := rfl
@[simp] theorem accept_shamt (s : State) (c : Word) : (accept s c).shamt = s.shamt := rfl
@[simp] theorem accept_cmd (s : State) (c : Word) : (accept s c).cmd = c := rfl
@[simp] theorem accept_status (s : State) (c : Word) : (accept s c).status = acceptStatus s.status := rfl
@[simp] theorem accept_rc (s : State) (c : Word) : (accept s c).rc = s.rc := rfl
@[simp] theorem accept_cmpr (s : State) (c : Word) : (accept s c).cmpr = s.cmpr := rfl
@[simp] theorem accept_rs (s : State) (c : Word) : (accept s c).rs = s.rs := rfl
@[simp] theorem accept_q (s : State) (c : Word) : (accept s c).q = s.q := rfl
@[simp] theorem accept_r (s : State) (c : Word) : (accept s c).r = s.r := rfl
@[simp] theorem accept_phase (s : State) (c : Word) : (accept s c).phase = .busy := rfl
@[simp] theorem accept_lcmd (s : State) (c : Word) : (accept s c).lcmd = c := rfl
@[simp] theorem accept_la (s : State) (c : Word) : (accept s c).la = s.opa := rfl
@[simp] theorem accept_lb (s : State) (c : Word) : (accept s c).lb = s.opb := rfl
@[simp] theorem accept_lscl (s : State) (c : Word) : (accept s c).lscl = s.scl := rfl
@[simp] theorem accept_lshamt (s : State) (c : Word) : (accept s c).lshamt = s.shamt := rfl
@[simp] theorem accept_script (s : State) (c : Word) : (accept s c).script = s.script := rfl
@[simp] theorem accept_reads (s : State) (c : Word) : (accept s c).reads = s.reads := rfl

@[simp] theorem overrun_opa (s : State) : (overrun s).opa = s.opa := rfl
@[simp] theorem overrun_opb (s : State) : (overrun s).opb = s.opb := rfl
@[simp] theorem overrun_scl (s : State) : (overrun s).scl = s.scl := rfl
@[simp] theorem overrun_shamt (s : State) : (overrun s).shamt = s.shamt := rfl
@[simp] theorem overrun_cmd (s : State) : (overrun s).cmd = s.cmd := rfl
@[simp] theorem overrun_status (s : State) : (overrun s).status = overrunStatus s.status := rfl
@[simp] theorem overrun_rc (s : State) : (overrun s).rc = s.rc := rfl
@[simp] theorem overrun_cmpr (s : State) : (overrun s).cmpr = s.cmpr := rfl
@[simp] theorem overrun_rs (s : State) : (overrun s).rs = s.rs := rfl
@[simp] theorem overrun_q (s : State) : (overrun s).q = s.q := rfl
@[simp] theorem overrun_r (s : State) : (overrun s).r = s.r := rfl
@[simp] theorem overrun_phase (s : State) : (overrun s).phase = s.phase := rfl
@[simp] theorem overrun_lcmd (s : State) : (overrun s).lcmd = s.lcmd := rfl
@[simp] theorem overrun_la (s : State) : (overrun s).la = s.la := rfl
@[simp] theorem overrun_lb (s : State) : (overrun s).lb = s.lb := rfl
@[simp] theorem overrun_lscl (s : State) : (overrun s).lscl = s.lscl := rfl
@[simp] theorem overrun_lshamt (s : State) : (overrun s).lshamt = s.lshamt := rfl
@[simp] theorem overrun_script (s : State) : (overrun s).script = s.script := rfl
@[simp] theorem overrun_reads (s : State) : (overrun s).reads = s.reads := rfl

@[simp] theorem complete_opa (s : State) (e : Effect) : (complete s e).opa = s.opa := rfl
@[simp] theorem complete_opb (s : State) (e : Effect) : (complete s e).opb = s.opb := rfl
@[simp] theorem complete_scl (s : State) (e : Effect) : (complete s e).scl = s.scl := rfl
@[simp] theorem complete_shamt (s : State) (e : Effect) : (complete s e).shamt = s.shamt := rfl
@[simp] theorem complete_cmd (s : State) (e : Effect) : (complete s e).cmd = s.cmd := rfl
@[simp] theorem complete_status (s : State) (e : Effect) : (complete s e).status = completeStatus s.status e.code e.borrow := rfl
@[simp] theorem complete_rc (s : State) (e : Effect) : (complete s e).rc = codeWord e.code := rfl
@[simp] theorem complete_cmpr (s : State) (e : Effect) : (complete s e).cmpr = e.cmpr.getD s.cmpr := rfl
@[simp] theorem complete_rs (s : State) (e : Effect) : (complete s e).rs = e.rs.getD s.rs := rfl
@[simp] theorem complete_q (s : State) (e : Effect) : (complete s e).q = e.q.getD s.q := rfl
@[simp] theorem complete_r (s : State) (e : Effect) : (complete s e).r = e.r.getD s.r := rfl
@[simp] theorem complete_phase (s : State) (e : Effect) : (complete s e).phase = .idle := rfl
@[simp] theorem complete_lcmd (s : State) (e : Effect) : (complete s e).lcmd = s.lcmd := rfl
@[simp] theorem complete_la (s : State) (e : Effect) : (complete s e).la = s.la := rfl
@[simp] theorem complete_lb (s : State) (e : Effect) : (complete s e).lb = s.lb := rfl
@[simp] theorem complete_lscl (s : State) (e : Effect) : (complete s e).lscl = s.lscl := rfl
@[simp] theorem complete_lshamt (s : State) (e : Effect) : (complete s e).lshamt = s.lshamt := rfl
@[simp] theorem complete_script (s : State) (e : Effect) : (complete s e).script = s.script := rfl
@[simp] theorem complete_reads (s : State) (e : Effect) : (complete s e).reads = s.reads := rfl

@[simp] theorem hostRead_opa (s : State) (off : Nat) : (hostRead s off).opa = s.opa := rfl
@[simp] theorem hostRead_opb (s : State) (off : Nat) : (hostRead s off).opb = s.opb := rfl
@[simp] theorem hostRead_scl (s : State) (off : Nat) : (hostRead s off).scl = s.scl := rfl
@[simp] theorem hostRead_shamt (s : State) (off : Nat) : (hostRead s off).shamt = s.shamt := rfl
@[simp] theorem hostRead_cmd (s : State) (off : Nat) : (hostRead s off).cmd = s.cmd := rfl
@[simp] theorem hostRead_status (s : State) (off : Nat) : (hostRead s off).status = s.status := rfl
@[simp] theorem hostRead_rc (s : State) (off : Nat) : (hostRead s off).rc = s.rc := rfl
@[simp] theorem hostRead_cmpr (s : State) (off : Nat) : (hostRead s off).cmpr = s.cmpr := rfl
@[simp] theorem hostRead_rs (s : State) (off : Nat) : (hostRead s off).rs = s.rs := rfl
@[simp] theorem hostRead_q (s : State) (off : Nat) : (hostRead s off).q = s.q := rfl
@[simp] theorem hostRead_r (s : State) (off : Nat) : (hostRead s off).r = s.r := rfl
@[simp] theorem hostRead_phase (s : State) (off : Nat) : (hostRead s off).phase = s.phase := rfl
@[simp] theorem hostRead_lcmd (s : State) (off : Nat) : (hostRead s off).lcmd = s.lcmd := rfl
@[simp] theorem hostRead_la (s : State) (off : Nat) : (hostRead s off).la = s.la := rfl
@[simp] theorem hostRead_lb (s : State) (off : Nat) : (hostRead s off).lb = s.lb := rfl
@[simp] theorem hostRead_lscl (s : State) (off : Nat) : (hostRead s off).lscl = s.lscl := rfl
@[simp] theorem hostRead_lshamt (s : State) (off : Nat) : (hostRead s off).lshamt = s.lshamt := rfl
@[simp] theorem hostRead_script (s : State) (off : Nat) : (hostRead s off).script = s.script := rfl
@[simp] theorem hostRead_reads (s : State) (off : Nat) : (hostRead s off).reads = ⟨off, windowWord s off⟩ :: s.reads := rfl

@[simp] theorem withScript_opa (s : State) (evs : List Event) : (withScript s evs).opa = s.opa := rfl
@[simp] theorem withScript_opb (s : State) (evs : List Event) : (withScript s evs).opb = s.opb := rfl
@[simp] theorem withScript_scl (s : State) (evs : List Event) : (withScript s evs).scl = s.scl := rfl
@[simp] theorem withScript_shamt (s : State) (evs : List Event) : (withScript s evs).shamt = s.shamt := rfl
@[simp] theorem withScript_cmd (s : State) (evs : List Event) : (withScript s evs).cmd = s.cmd := rfl
@[simp] theorem withScript_status (s : State) (evs : List Event) : (withScript s evs).status = s.status := rfl
@[simp] theorem withScript_rc (s : State) (evs : List Event) : (withScript s evs).rc = s.rc := rfl
@[simp] theorem withScript_cmpr (s : State) (evs : List Event) : (withScript s evs).cmpr = s.cmpr := rfl
@[simp] theorem withScript_rs (s : State) (evs : List Event) : (withScript s evs).rs = s.rs := rfl
@[simp] theorem withScript_q (s : State) (evs : List Event) : (withScript s evs).q = s.q := rfl
@[simp] theorem withScript_r (s : State) (evs : List Event) : (withScript s evs).r = s.r := rfl
@[simp] theorem withScript_phase (s : State) (evs : List Event) : (withScript s evs).phase = s.phase := rfl
@[simp] theorem withScript_lcmd (s : State) (evs : List Event) : (withScript s evs).lcmd = s.lcmd := rfl
@[simp] theorem withScript_la (s : State) (evs : List Event) : (withScript s evs).la = s.la := rfl
@[simp] theorem withScript_lb (s : State) (evs : List Event) : (withScript s evs).lb = s.lb := rfl
@[simp] theorem withScript_lscl (s : State) (evs : List Event) : (withScript s evs).lscl = s.lscl := rfl
@[simp] theorem withScript_lshamt (s : State) (evs : List Event) : (withScript s evs).lshamt = s.lshamt := rfl
@[simp] theorem withScript_script (s : State) (evs : List Event) : (withScript s evs).script = evs := rfl
@[simp] theorem withScript_reads (s : State) (evs : List Event) : (withScript s evs).reads = s.reads := rfl

@[simp] theorem resetBlock_opa (s : State) : (resetBlock s).opa = State.reset.opa := rfl
@[simp] theorem resetBlock_opb (s : State) : (resetBlock s).opb = State.reset.opb := rfl
@[simp] theorem resetBlock_scl (s : State) : (resetBlock s).scl = State.reset.scl := rfl
@[simp] theorem resetBlock_shamt (s : State) : (resetBlock s).shamt = State.reset.shamt := rfl
@[simp] theorem resetBlock_cmd (s : State) : (resetBlock s).cmd = State.reset.cmd := rfl
@[simp] theorem resetBlock_status (s : State) : (resetBlock s).status = State.reset.status := rfl
@[simp] theorem resetBlock_rc (s : State) : (resetBlock s).rc = State.reset.rc := rfl
@[simp] theorem resetBlock_cmpr (s : State) : (resetBlock s).cmpr = State.reset.cmpr := rfl
@[simp] theorem resetBlock_rs (s : State) : (resetBlock s).rs = State.reset.rs := rfl
@[simp] theorem resetBlock_q (s : State) : (resetBlock s).q = State.reset.q := rfl
@[simp] theorem resetBlock_r (s : State) : (resetBlock s).r = State.reset.r := rfl
@[simp] theorem resetBlock_phase (s : State) : (resetBlock s).phase = State.reset.phase := rfl
@[simp] theorem resetBlock_lcmd (s : State) : (resetBlock s).lcmd = State.reset.lcmd := rfl
@[simp] theorem resetBlock_la (s : State) : (resetBlock s).la = State.reset.la := rfl
@[simp] theorem resetBlock_lb (s : State) : (resetBlock s).lb = State.reset.lb := rfl
@[simp] theorem resetBlock_lscl (s : State) : (resetBlock s).lscl = State.reset.lscl := rfl
@[simp] theorem resetBlock_lshamt (s : State) : (resetBlock s).lshamt = State.reset.lshamt := rfl
@[simp] theorem resetBlock_script (s : State) : (resetBlock s).script = s.script := rfl
@[simp] theorem resetBlock_reads (s : State) : (resetBlock s).reads = s.reads := rfl

@[simp] theorem acceptStatus_busy (st : Status) : (acceptStatus st).busy = true := rfl
@[simp] theorem acceptStatus_done (st : Status) : (acceptStatus st).done = false := rfl
@[simp] theorem acceptStatus_dz (st : Status) : (acceptStatus st).dz = st.dz := rfl
@[simp] theorem acceptStatus_ill (st : Status) : (acceptStatus st).ill = st.ill := rfl
@[simp] theorem acceptStatus_borrow (st : Status) : (acceptStatus st).borrow = st.borrow := rfl
@[simp] theorem acceptStatus_ovr (st : Status) : (acceptStatus st).ovr = false := rfl

@[simp] theorem overrunStatus_busy (st : Status) : (overrunStatus st).busy = st.busy := rfl
@[simp] theorem overrunStatus_done (st : Status) : (overrunStatus st).done = st.done := rfl
@[simp] theorem overrunStatus_dz (st : Status) : (overrunStatus st).dz = st.dz := rfl
@[simp] theorem overrunStatus_ill (st : Status) : (overrunStatus st).ill = st.ill := rfl
@[simp] theorem overrunStatus_borrow (st : Status) : (overrunStatus st).borrow = st.borrow := rfl
@[simp] theorem overrunStatus_ovr (st : Status) : (overrunStatus st).ovr = true := rfl

@[simp] theorem completeStatus_busy (st : Status) (c : Code) (b : Option Bool) : (completeStatus st c b).busy = false := rfl
@[simp] theorem completeStatus_done (st : Status) (c : Code) (b : Option Bool) : (completeStatus st c b).done = true := rfl
@[simp] theorem completeStatus_dz (st : Status) (c : Code) (b : Option Bool) : (completeStatus st c b).dz = decide (c = .divideByZero) := rfl
@[simp] theorem completeStatus_ill (st : Status) (c : Code) (b : Option Bool) : (completeStatus st c b).ill = decide (c = .illegalCommand) := rfl
@[simp] theorem completeStatus_borrow (st : Status) (c : Code) (b : Option Bool) : (completeStatus st c b).borrow = b.getD st.borrow := rfl
@[simp] theorem completeStatus_ovr (st : Status) (c : Code) (b : Option Bool) : (completeStatus st c b).ovr = st.ovr := rfl

@[simp] theorem codeWord_success : codeWord .success = 0 := by decide
@[simp] theorem codeWord_divideByZero : codeWord .divideByZero = 0xFFFFFFFFFFFFFFFF := by decide
@[simp] theorem codeWord_illegalCommand : codeWord .illegalCommand = 0xFFFFFFFFFFFFFFFE := by decide

end Sys2Proof.Machine
end

