-- ==== Sys2Proof/Laws/Window.lean ====
section
/-! SUPPORT. The register map (10_state.md R20): offsets and registers agree, and what a host write does to each. -/

namespace Sys2Proof.Machine

/-- R20: the register at a register's own offset is that register. -/
theorem regAt_regOff (reg : Reg) : regAt (regOff reg) = some reg := by
  cases reg with
  | word x i => cases x <;> revert i <;> decide
  | _ => decide

/-- R20, R63: every register's offset is inside the interface. -/
theorem inInterface_regOff (reg : Reg) : inInterface (regOff reg) 8 = true := by
  cases reg with
  | word x i => cases x <;> revert i <;> decide
  | _ => decide

theorem windowWord_regOff (s : State) (reg : Reg) : windowWord s (regOff reg) = readReg s reg := by
  rw [windowWord, regAt_regOff]

theorem hostWrite_regOff (s : State) (reg : Reg) (v : Word) : hostWrite s (regOff reg) v = writeReg s reg v := by
  rw [hostWrite, regAt_regOff]

/-- R20, R64: the aligned offsets that no register has are 0x0B8 and 0x140 to 0x1F8. -/
theorem regAt_eq_none_iff (k : Fin 64) :
    regAt (8 * k.val) = none ↔ 8 * k.val = 0x0B8 ∨ 0x140 ≤ 8 * k.val := by
  revert k; decide

/-- R20: an aligned offset of the window is a register's or reserved. -/
theorem regOff_of_regAt {off : Nat} (hoff : off % 8 = 0) (hlt : off < 0x200) {reg : Reg} (h : regAt off = some reg) :
    off = regOff reg := by
  have key : ∀ k : Fin 64, ∀ reg, regAt (8 * k.val) = some reg → 8 * k.val = regOff reg := by
    have h64 : ∀ k : Fin 64, (regAt (8 * k.val)).elim True (fun reg => 8 * k.val = regOff reg) := by
      intro k
      fin_cases k <;> simp [regAt, narrowRegAt, regOff, wideOff, wordIndex]
    intro k reg hk
    have := h64 k
    rwa [hk] at this
  have := key ⟨off / 8, by omega⟩ reg (by rwa [show 8 * (off / 8) = off by omega])
  simpa [show 8 * (off / 8) = off by omega] using this

/-- R20, R65: what a host write can do: nothing, one operand register, acceptance or overrun. -/
theorem writeReg_cases (s : State) (reg : Reg) (v : Word) :
    writeReg s reg v = s ∨
      (∃ i : Fin 8, reg = .word .opa i ∧ writeReg s reg v = { s with opa := setWord s.opa i v }) ∨
      (∃ i : Fin 8, reg = .word .opb i ∧ writeReg s reg v = { s with opb := setWord s.opb i v }) ∨
      (reg = .scl ∧ writeReg s reg v = { s with scl := v }) ∨
      (reg = .shamt ∧ writeReg s reg v = { s with shamt := v }) ∨
      (reg = .cmd ∧ s.phase = .idle ∧ writeReg s reg v = accept s v) ∨
      (reg = .cmd ∧ s.phase = .busy ∧ writeReg s reg v = overrun s) := by
  cases reg with
  | word x i => cases x <;> simp [writeReg, writeWide]
  | cmd => cases hp : s.phase <;> simp [writeReg, writeCmd, hp]
  | _ => simp [writeReg]

end Sys2Proof.Machine
end

