-- ==== Sys2Proof/Laws/Step.lean ====
section
/-! SUPPORT. What a step can do, said once: every command completes with its effect, and a step is one of six events. -/

namespace Sys2Proof.Machine

/-- R67: every command's meaning is the completion that applies what Execute gives. -/
theorem exec_eq_complete (i : Instr) (s : State) : exec i s = .next (complete s (effectOf i s)) := by
  cases i <;> rfl

/-- R67, R242: the completion step, of a legal or an illegal word. -/
theorem completeCommand_eq (s : State) : completeCommand s = .next (complete s (latchedEffect s)) := by
  unfold completeCommand latchedEffect
  cases decode s.lcmd with
  | ok i => exact exec_eq_complete i s
  | error e => rfl

/-- R67: the sequencer's turn. -/
theorem sequencerTurn_eq (s : State) :
    sequencerTurn s = .next (match s.phase with | .idle => s | .busy => complete s (latchedEffect s)) := by
  unfold sequencerTurn
  cases s.phase with
  | idle => rfl
  | busy => exact completeCommand_eq s

/-- R63, R65, R66, R68: what a host access that answers a next state does. -/
theorem hostStep_cases {s t : State} {a : HostAccess} (h : hostStep s a = .next t) :
    (∃ off, a = .read off 8 ∧ inInterface off 8 = true ∧ t = hostRead s off) ∨
      (∃ off v, a = .write off 8 v ∧ inInterface off 8 = true ∧ t = hostWrite s off v) := by
  cases a with
  | read off bytes =>
    simp only [hostStep] at h
    split at h
    · rename_i hi
      have hb : bytes = 8 := by simp only [inInterface, decide_eq_true_eq] at hi; exact hi.1
      subst hb
      exact .inl ⟨off, rfl, hi, by simpa using h.symm⟩
    · cases h
  | write off bytes v =>
    simp only [hostStep] at h
    split at h
    · rename_i hi
      have hb : bytes = 8 := by simp only [inInterface, decide_eq_true_eq] at hi; exact hi.1
      subst hb
      exact .inr ⟨off, v, rfl, hi, by simpa using h.symm⟩
    · cases h

/-- R70: what a step that answers a next state has done, in the state with its event taken off the script. -/
theorem step_cases {s t : State} (h : step s = .next t) :
    (s.phase = .idle ∧ s.script = [] ∧ t = s) ∨
      (s.phase = .idle ∧ ∃ rest, s.script = .sequencer :: rest ∧ t = withScript s rest) ∨
      (s.phase = .busy ∧ (s.script = [] ∨ ∃ rest, s.script = .sequencer :: rest) ∧
        t = complete (withScript s s.script.tail) (latchedEffect s)) ∨
      (∃ off rest, s.script = .host (.read off 8) :: rest ∧ inInterface off 8 = true ∧
        t = hostRead (withScript s rest) off) ∨
      (∃ off v rest, s.script = .host (.write off 8 v) :: rest ∧ inInterface off 8 = true ∧
        t = hostWrite (withScript s rest) off v) ∨
      (∃ rest, s.script = .reset :: rest ∧ t = resetBlock (withScript s rest)) := by
  unfold step stepScript at h
  cases hs : s.script with
  | nil =>
    simp only [hs, sequencerTurn_eq, Host.Outcome.next.injEq] at h
    cases hp : s.phase with
    | idle => simp only [hp] at h; exact .inl ⟨rfl, rfl, h.symm⟩
    | busy =>
      simp only [hp] at h
      refine .inr (.inr (.inl ⟨rfl, .inl rfl, ?_⟩))
      rw [← h, List.tail_nil, ← hs]; rfl
  | cons ev rest =>
    simp only [hs] at h
    cases ev with
    | host a =>
      rcases hostStep_cases h with ⟨off, rfl, hi, rfl⟩ | ⟨off, v, rfl, hi, rfl⟩
      · exact .inr (.inr (.inr (.inl ⟨off, rest, rfl, hi, rfl⟩)))
      · exact .inr (.inr (.inr (.inr (.inl ⟨off, v, rest, rfl, hi, rfl⟩))))
    | sequencer =>
      simp only [perform, sequencerTurn_eq, Host.Outcome.next.injEq, withScript_phase] at h
      cases hp : s.phase with
      | idle => simp only [hp] at h; exact .inr (.inl ⟨rfl, rest, rfl, h.symm⟩)
      | busy =>
        simp only [hp] at h
        refine .inr (.inr (.inl ⟨rfl, .inr ⟨rest, rfl⟩, ?_⟩))
        rw [← h]; rfl
    | reset =>
      simp only [perform, Host.Outcome.next.injEq] at h
      exact .inr (.inr (.inr (.inr (.inr ⟨rest, rfl, h.symm⟩))))

/-- A run peels off a step that answers a next state. -/
theorem core_run_succ {s t : State} (k : Nat) (h : step s = .next t) : core.run (k + 1) s = core.run k t := by
  have h' : core.step s = Host.Outcome.next t := h
  simp only [Host.Core.run, h']

/-- R65, R66, R68: the step of a host write to a register. -/
theorem step_host_write {s : State} {reg : Reg} {v : Word} {rest : List Event}
    (hs : s.script = .host (.write (regOff reg) 8 v) :: rest) :
    step s = .next (writeReg (withScript s rest) reg v) := by
  simp [step, stepScript, hs, perform, hostStep, inInterface_regOff, hostWrite_regOff]

/-- R65: the step of a host read inside the interface. -/
theorem step_host_read {s : State} {off : Nat} {rest : List Event} (hin : inInterface off 8 = true)
    (hs : s.script = .host (.read off 8) :: rest) : step s = .next (hostRead (withScript s rest) off) := by
  simp [step, stepScript, hs, perform, hostStep, hin]

/-- R67: the sequencer's step while a command is in progress. -/
theorem step_sequencer {s : State} {rest : List Event} (hp : s.phase = .busy) (hs : s.script = .sequencer :: rest) :
    step s = .next (complete (withScript s rest) (latchedEffect s)) := by
  simp only [step, stepScript, hs, perform, sequencerTurn_eq, withScript_phase, hp]
  rfl

/-- R67: the completion step, on the sequencer's event or with no event left. -/
theorem step_completing {s : State} (h : Completing s) :
    step s = .next (complete (withScript s s.script.tail) (latchedEffect s)) := by
  obtain ⟨hp, hs | ⟨rest, hs⟩⟩ := h
  · have hw : withScript s s.script.tail = s := by rw [hs, List.tail_nil, ← hs]; rfl
    rw [hw]
    simp only [step, stepScript, hs, sequencerTurn_eq, hp]
  · rw [step_sequencer hp hs, hs, List.tail_cons]

end Sys2Proof.Machine
end

