-- ==== Sys2Proof/Tests/Slice0.lean ====
section
/-! SUPPORT. Tests. Words, values and expected results are written out from 30_encoding.md R92, R93 and 95_test_vectors.md
(the vector is named at each test). `witness_…` shows states that meet the hypotheses of a statement, at the ends of
their ranges. -/

namespace Sys2Proof.Tests

open Sys2Proof.Machine

-- Each test is closed by the kernel before the next begins, so that few of them wait at one time.
set_option Elab.async false

/-! ## Values and states -/

/-- M = 2^512 − 1. -/
def allOnes : Val512 := BitVec.ofNat 512 (2 ^ 512 - 1)

/-- 2^k. -/
def pow2 (k : Nat) : Val512 := BitVec.ofNat 512 (2 ^ k)

/-- A command in progress with these latches; the sequencer's turn. -/
def busy (c : Word) (a b : Val512) (scl shamt : Word) : State :=
  { State.reset with
    cmd := c, lcmd := c, la := a, lb := b, lscl := scl, lshamt := shamt, phase := .busy
    status := ⟨true, false, false, false, false, false⟩, script := [.sequencer] }

/-- The block idle, one event to come. -/
def idle (ev : Event) : State := { State.reset with script := [ev] }

/-- The state a step leaves, or the one it started from if it stops. -/
def after (s : State) : State :=
  match step s with
  | .next t => t
  | .fault _ => s
  | .refused _ => s

/-- The state a command leaves. -/
def ran (i : Instr) (s : State) : State :=
  match exec i s with
  | .next t => t
  | .fault _ => s
  | .refused _ => s

/-! ## Well-formedness: one ill-formed word for each check -/

/-- V-LC-04, V-LC-05, V-LC-06. -/
theorem test_undefined_op_is_ill_formed :
    legalWord 0x0 = false ∧ legalWord 0x8 = false ∧ legalWord 0xFF = false ∧ opDefined 0xFF = false := by decide +kernel

/-- V-LC-08, V-LC-09. -/
theorem test_reserved_bit_is_ill_formed :
    legalWord 0x203 = false ∧ rsvClear 0x203 = false ∧ legalWord 0x8000000000000002 = false := by decide +kernel

/-- V-LC-07. -/
theorem test_bin_outside_subb_is_ill_formed : legalWord 0x101 = false ∧ binAllowed 0x101 = false := by decide +kernel

/-- V-LC-10, and R92's words. -/
theorem test_legal_words_are_well_formed :
    legalWord 0x1 = true ∧ legalWord 0x2 = true ∧ legalWord 0x3 = true ∧ legalWord 0x4 = true ∧ legalWord 0x5 = true ∧
      legalWord 0x6 = true ∧ legalWord 0x7 = true ∧ legalWord 0x107 = true := by decide +kernel

/-- R63: a narrow, a misaligned and an outlying access are no accesses of the interface. -/
theorem test_accesses_outside_the_interface :
    inInterface 0x000 4 = false ∧ inInterface 0x004 8 = false ∧ inInterface 0x200 8 = false ∧
      inInterface 0x1F8 8 = true := by decide

/-! ## Decoding: R92's patterns, bit 63 to bit 0 -/

theorem test_decode_div : decode (0#55 ++ 0#1 ++ 0b00000001#8) = .ok .div ∧ decodeTableWord 64 1 = some .div := by
  decide +kernel

theorem test_decode_divs : decode (0#55 ++ 0#1 ++ 0b00000010#8) = .ok .divs ∧ decodeTableWord 64 2 = some .divs := by
  decide +kernel

theorem test_decode_shl : decode (0#55 ++ 0#1 ++ 0b00000011#8) = .ok .shl ∧ decodeTableWord 64 3 = some .shl := by
  decide +kernel

theorem test_decode_shr : decode (0#55 ++ 0#1 ++ 0b00000100#8) = .ok .shr ∧ decodeTableWord 64 4 = some .shr := by
  decide +kernel

theorem test_decode_cmps : decode (0#55 ++ 0#1 ++ 0b00000101#8) = .ok .cmps ∧ decodeTableWord 64 5 = some .cmps := by
  decide +kernel

theorem test_decode_cmp : decode (0#55 ++ 0#1 ++ 0b00000110#8) = .ok .cmp ∧ decodeTableWord 64 6 = some .cmp := by
  decide +kernel

theorem test_decode_subb :
    decode (0#55 ++ 0#1 ++ 0b00000111#8) = .ok (.subb 0) ∧ decode (0#55 ++ 1#1 ++ 0b00000111#8) = .ok (.subb 1) ∧
      decodeTableWord 64 0x107 = some (.subb 1) := by decide +kernel

theorem test_decode_refuses : decodeTableWord 64 0 = none ∧ decodeTableWord 64 0x203 = none := by decide +kernel

/-- A word placed for the host's question is completed by the very next step: V-LC-02, V-LC-03 with LB = 0. -/
theorem test_placed_word_runs : (after (State.reset.withFetchWord 64 1)).rc = 0xFFFFFFFFFFFFFFFF := by decide +kernel

/-! ## Commands -/

/-- V-SH-03. -/
theorem test_shl_crosses_words :
    (ran .shl (busy 3 0x80000000000000010000000000000000FFFFFFFFFFFFFFFF 0 0 63)).q
      = 0x400000000000000080000000000000007FFFFFFFFFFFFFFF8000000000000000 := by decide +kernel

/-- V-SH-12, V-SH-10. -/
theorem test_shl_drops_the_top_bit :
    (ran .shl (busy 3 allOnes 0 0 1)).q = allOnes - 1 ∧ (ran .shl (busy 3 allOnes 0 0 512)).q = 0 := by decide +kernel

/-- V-SH-05. -/
theorem test_shr_crosses_words :
    (ran .shr (busy 4 0x80000000000000010000000000000000FFFFFFFFFFFFFFFF 0 0 65)).q
      = 0x40000000000000008000000000000000 := by decide +kernel

/-- V-SH-13, V-SH-11. -/
theorem test_shr_is_logical :
    (ran .shr (busy 4 allOnes 0 0 511)).q = 1 ∧ (ran .shr (busy 4 allOnes 0 0 0xFFFFFFFFFFFFFFFF)).q = 0 := by
  decide +kernel

/-- V-CMPS-02, V-CMPS-03. -/
theorem test_cmps_less_and_equal :
    (ran .cmps (busy 5 5 0 7 0)).cmpr = 0xFFFFFFFFFFFFFFFF ∧ (ran .cmps (busy 5 7 0 7 0)).cmpr = 0 := by decide +kernel

/-- V-CMPS-05. -/
theorem test_cmps_sees_the_high_words : (ran .cmps (busy 5 (pow2 64) 0 0xFFFFFFFFFFFFFFFF 0)).cmpr = 1 := by
  decide +kernel

/-- V-CMP-07. -/
theorem test_cmp_reads_the_low_word :
    (ran .cmp (busy 6 0xFFFFFFFFFFFFFFFF0000000000000000 0xFFFFFFFFFFFFFFFFFFFFFFFFFFFFFFFF 0 0)).cmpr
      = 0xFFFFFFFFFFFFFFFF := by decide +kernel

/-- V-CMP-08. -/
theorem test_cmp_is_unsigned : (ran .cmp (busy 6 (pow2 511) (pow2 511 - 1) 0 0)).cmpr = 1 := by decide +kernel

/-- V-SUB-05, V-SUB-10. -/
theorem test_subb_wraps_and_borrows :
    (ran (.subb 0) (busy 7 3 5 0 0)).q = allOnes - 1 ∧ (ran (.subb 0) (busy 7 3 5 0 0)).status.borrow = true ∧
      (ran (.subb 0) (busy 7 (pow2 64) 1 0 0)).q = 0xFFFFFFFFFFFFFFFF := by decide +kernel

/-- V-SUB-09, V-SUB-04. -/
theorem test_subb_uses_the_borrow_in :
    (ran (.subb 1) (busy 0x107 0 allOnes 0 0)).q = 0 ∧ (ran (.subb 1) (busy 0x107 0 allOnes 0 0)).status.borrow = true ∧
      (ran (.subb 1) (busy 0x107 5 3 0 0)).q = 1 ∧ (ran (.subb 1) (busy 0x107 5 3 0 0)).status.borrow = false := by
  decide +kernel

/-- V-DIVS-10, V-DIVS-06. -/
theorem test_divs_by_ten :
    (ran .divs (busy 2 0x2BDC545DF2BDED 0 10 0)).q = 0x462D53C984631 ∧
      (ran .divs (busy 2 0x2BDC545DF2BDED 0 10 0)).rs = 3 ∧ (ran .divs (busy 2 allOnes 0 10 0)).rs = 5 := by
  decide +kernel

/-- V-DIVS-02: STATUS is 0x6. -/
theorem test_divs_by_zero :
    (ran .divs (busy 2 allOnes 0 0 0)).q = 0 ∧ (ran .divs (busy 2 allOnes 0 0 0)).rc = 0xFFFFFFFFFFFFFFFF ∧
      statusWord (ran .divs (busy 2 allOnes 0 0 0)).status = 0x6 := by decide +kernel

/-- V-DIV-14 (the cap of the trial digit and one add-back), V-DIV-16 (the fixture). -/
theorem test_div_caps_and_adds_back :
    (ran .div (busy 1 (pow2 192) (pow2 128 + 1) 0 0)).q = 0xFFFFFFFFFFFFFFFF ∧
      (ran .div (busy 1 (pow2 192) (pow2 128 + 1) 0 0)).r = 0xFFFFFFFFFFFFFFFF0000000000000001 ∧
      (ran .div (busy 1 (4 * pow2 448 + 6 * pow2 384 + 4 * pow2 320) (2 * pow2 448 + pow2 384) 0 0)).q = 2 ∧
      (ran .div (busy 1 (4 * pow2 448 + 6 * pow2 384 + 4 * pow2 320) (2 * pow2 448 + pow2 384) 0 0)).r
        = 4 * pow2 384 + 4 * pow2 320 := by decide +kernel

/-- V-DIV-20 and its trace T5: the estimate, the digit after one refinement, the quotient and the remainder. -/
theorem test_div_refines_once :
    (estimate 0x40000000000000008000000000000000 0x8000000000000000) = (0x8000000000000001, 0) ∧
      (refine 0x8000000000000000 0x7FFFFFFFFFFFFFFF 0x7FFFFFFFFFFFFFFF refineFuel (0x8000000000000001, 0))
        = (0x8000000000000000, 0x8000000000000000) ∧
      (ran .div (busy 1 0x80000000000000010000000000000000FFFFFFFFFFFFFFFF 0x10000000000000000FFFFFFFFFFFFFFFF 0 0)).q
        = 0x8000000000000000 ∧
      (ran .div (busy 1 0x80000000000000010000000000000000FFFFFFFFFFFFFFFF 0x10000000000000000FFFFFFFFFFFFFFFF 0 0)).r
        = 0x80000000000000017FFFFFFFFFFFFFFF := by decide +kernel

/-! ## Lifecycle -/

/-- V-LC-02 and V-LC-04: any word is accepted; an illegal one completes with STATUS 0xA. -/
theorem test_illegal_word_lifecycle :
    statusWord (after (idle (.host (.write 0x090 8 0)))).status = 0x1 ∧
      statusWord (after (busy 0 5 0 0 0)).status = 0xA ∧ (after (busy 0 5 0 0 0)).rc = 0xFFFFFFFFFFFFFFFE := by
  decide +kernel

/-- V-LC-11: an overrun keeps CMD, sets OVR; the command then completes with STATUS 0x22. -/
theorem test_overrun :
    (after { busy 1 5 7 0 0 with script := [.host (.write 0x090 8 5)] }).cmd = 1 ∧
      statusWord (after { busy 1 5 7 0 0 with script := [.host (.write 0x090 8 5)] }).status = 0x21 ∧
      statusWord (after { after { busy 1 5 7 0 0 with script := [.host (.write 0x090 8 5)] } with
        script := [.sequencer] }).status = 0x22 := by decide +kernel

/-- V-LC-13, V-LC-14: a write to a read-only register is ignored, a reserved offset reads 0. -/
theorem test_ignored_write_and_reserved_read :
    after (idle (.host (.write 0x0C0 8 0x1234))) = State.reset ∧
      (after (idle (.host (.read 0x1F8 8)))).reads = [⟨0x1F8, 0⟩] := by decide +kernel

/-- V-LC-15: BORROW survives a completed DIV; STATUS is 0x12. -/
theorem test_borrow_survives_div :
    statusWord (ran .div { busy 1 5 7 0 0 with status := ⟨true, false, false, false, true, false⟩ }).status = 0x12 := by
  decide +kernel

/-! ## Witnesses: states that meet the hypotheses of the statements -/

theorem witness_StepRunsTheLatchedCommand :
    (busy 1 5 7 0 0).phase = .busy ∧ decode (busy 1 5 7 0 0).lcmd = .ok .div ∧
      (busy 1 5 7 0 0).script = .sequencer :: [] ∧ (withScript (busy 1 5 7 0 0) []).script = [] := by decide +kernel

/-- Below 512 and at 512. -/
theorem witness_shift_amounts :
    (busy 3 5 0 0 511).lshamt.toNat < 512 ∧ (busy 3 5 0 0 512).lshamt.toNat ≥ 512 := by decide +kernel

/-- Each clause at both ends of its range of k. -/
theorem witness_ShiftLawsHold :
    (busy 4 5 0 0 0).lshamt.toNat = 0 ∧ (busy 4 5 0 0 511).lshamt.toNat = 511 ∧ (busy 4 5 0 0 63).lshamt.toNat = 63 ∧
      (busy 4 5 0 0 512).lshamt.toNat = 512 - 0 ∧ (busy 4 5 0 0 0).lshamt.toNat = 512 - 512 := by decide +kernel

theorem witness_CmpsComparesWithScalar :
    (busy 5 6 0 7 0).la.toNat < (busy 5 6 0 7 0).lscl.toNat ∧ (busy 5 7 0 7 0).la.toNat = (busy 5 7 0 7 0).lscl.toNat ∧
      (busy 5 8 0 7 0).lscl.toNat < (busy 5 8 0 7 0).la.toNat ∧ wordOf (busy 5 (pow2 64) 0 7 0).la 1 ≠ 0 ∧
      wordOf (busy 5 (pow2 511) 0 7 0).la 7 ≠ 0 := by decide +kernel

theorem witness_CmpComparesValues :
    (busy 6 6 7 0 0).la.toNat < (busy 6 6 7 0 0).lb.toNat ∧ (busy 6 7 7 0 0).la.toNat = (busy 6 7 7 0 0).lb.toNat ∧
      (busy 6 8 7 0 0).lb.toNat < (busy 6 8 7 0 0).la.toNat ∧
      sigWidth (busy 6 8 (pow2 64) 0 0).la < sigWidth (busy 6 8 (pow2 64) 0 0).lb := by decide +kernel

theorem witness_WordDivideIsExact : (0xFFFFFFFFFFFFFFFE : Word).toNat < (0xFFFFFFFFFFFFFFFF : Word).toNat ∧
    (0 : Word).toNat < (1 : Word).toNat := by decide +kernel

theorem witness_DivsDividesByScalar : (busy 2 5 0 1 0).lscl ≠ 0 ∧ (busy 2 5 0 0 0).lscl = 0 := by decide +kernel

theorem witness_DivsEdgeCases :
    ((busy 2 0 0 7 0).la = 0 ∧ (busy 2 0 0 7 0).lscl ≠ 0) ∧ (busy 2 5 0 1 0).lscl = 1 ∧
      ((busy 2 5 0 5 0).lscl ≠ 0 ∧ (busy 2 5 0 5 0).la.toNat = (busy 2 5 0 5 0).lscl.toNat) ∧
      ((busy 2 5 0 0x8000000000000000 63).lscl.toNat = 2 ^ 63 ∧ (busy 2 5 0 0x8000000000000000 63).lshamt.toNat = 63) ∧
      ((busy 2 5 0 1 0).lscl.toNat = 2 ^ 0 ∧ (busy 2 5 0 1 0).lshamt.toNat = 0) ∧
      (busy 2 5 0 0 0).lscl = 0 ∧ (busy 2 allOnes 0 1 0).lscl = 1 ∧
      (busy 2 allOnes 0 1 0).la.toNat = 2 ^ 512 - 1 := by decide +kernel

theorem witness_RepeatedDivsGivesDigits :
    ({ busy 2 123 0 10 0 with scl := 10 } : State).scl = 10 ∧ ({ busy 2 123 0 10 0 with scl := 10 } : State).lscl = 10 := by
  decide +kernel

theorem witness_DivideByZeroIsReported : (busy 1 5 0 1 0).lb = 0 ∧ (busy 2 5 1 0 0).lscl = 0 := by decide +kernel

/-- One state for each case of R190, where the cases meet: A + 1 = B, A = B, one and two significant words. -/
theorem witness_DivTakesItsCases :
    (busy 1 5 0 0 0).lb = 0 ∧ (busy 1 5 6 0 0).lb ≠ 0 ∧ (busy 1 5 6 0 0).la.toNat < (busy 1 5 6 0 0).lb.toNat ∧
      ((busy 1 6 6 0 0).lb.toNat ≤ (busy 1 6 6 0 0).la.toNat ∧ sigWidth (busy 1 6 6 0 0).lb = 1) ∧
      ((busy 1 (pow2 64) (pow2 64) 0 0).lb.toNat ≤ (busy 1 (pow2 64) (pow2 64) 0 0).la.toNat ∧
        2 ≤ sigWidth (busy 1 (pow2 64) (pow2 64) 0 0).lb) := by decide +kernel

theorem witness_division_by_nonzero :
    (busy 1 6 6 0 0).lb ≠ 0 ∧ (busy 1 6 6 0 0).lb.toNat ≤ (busy 1 6 6 0 0).la.toNat ∧
      sigWidth (busy 1 6 6 0 0).la - sigWidth (busy 1 6 6 0 0).lb < 1 ∧ sigWidth (busy 1 6 6 0 0).lb ≤ 1 := by
  decide +kernel

theorem witness_DivCornerCases :
    ((busy 1 0 6 0 0).lb ≠ 0 ∧ (busy 1 0 6 0 0).la = 0) ∧ (busy 1 5 1 0 0).lb = 1 ∧
      ((busy 1 6 6 0 0).lb ≠ 0 ∧ (busy 1 6 6 0 0).la = (busy 1 6 6 0 0).lb) ∧
      ((busy 1 5 (pow2 511) 0 511).lb.toNat = 2 ^ 511 ∧ (busy 1 5 (pow2 511) 0 511).lshamt.toNat = 511) ∧
      ((busy 1 5 1 0 512).lb.toNat = 2 ^ 0 ∧ (busy 1 5 1 0 512).lshamt.toNat = 512 - 0) ∧
      ((busy 1 5 7 7 0).lscl ≠ 0 ∧ (busy 1 5 7 7 0).lb = (busy 1 5 7 7 0).lscl.setWidth 512) ∧
      ((busy 1 5 0 0 0).lb = 0 ∧ (busy 1 5 0 0 0).lscl = 0) ∧
      ((busy 1 allOnes 1 0 0).la.toNat = 2 ^ 512 - 1 ∧ (busy 1 allOnes 1 0 0).lb = 1) ∧
      ((busy 1 allOnes (pow2 64) 0 0).lb.toNat = 2 ^ 64 ∧ 2 ≤ sigWidth (busy 1 allOnes (pow2 64) 0 0).lb) := by
  decide +kernel

theorem witness_NormalizationTopsTheDivisor :
    (1 : Val512) ≠ 0 ∧ normShift 1 = 63 ∧ pow2 511 ≠ 0 ∧ normShift (pow2 511) = 0 := by decide +kernel

/-- The digit's hypotheses at both ends: two words at the top position, eight words at position 0. -/
theorem witness_digit_hypotheses :
    (2 ≤ 2 ∧ 6 + 2 ≤ 8 ∧ (pow2 127).toNat < 2 ^ (64 * 2) ∧ 2 ^ (64 * 2 - 1) ≤ (pow2 127).toNat ∧
        (BitVec.ofNat 576 (2 ^ 574)).toNat < (pow2 127).toNat * 2 ^ (64 * (6 + 1))) ∧
      (2 ≤ 8 ∧ 0 + 8 ≤ 8 ∧ (pow2 511).toNat < 2 ^ (64 * 8) ∧ 2 ^ (64 * 8 - 1) ≤ (pow2 511).toNat ∧
        (BitVec.ofNat 576 (2 ^ 574)).toNat < (pow2 511).toNat * 2 ^ (64 * (0 + 1))) := by decide +kernel

theorem witness_NormalizedRemainderDenormalizes :
    2 ≤ sigWidth (pow2 64) ∧ (pow2 64).toNat ≤ (pow2 64).toNat := by decide +kernel

theorem witness_MulSubWordFormAgrees : ([0, 1] : List Word).length = ([1] : List Word).length + 1 := by decide

/-- A borrowing subtraction: v is 2^63 and t is −2v, the least the add-backs mend. -/
theorem witness_AddBackWordFormAgrees :
    ([0, 0xFFFFFFFFFFFFFFFF] : List Word).length = ([0x8000000000000000] : List Word).length + 1 ∧
      (-(2 ^ 64) : Int) < 0 ∧ -(2 * (wordsVal [0x8000000000000000] : Int)) ≤ -(2 ^ 64) ∧
      (wordsVal [0, 0xFFFFFFFFFFFFFFFF] : Int) = -(2 ^ 64) % 2 ^ (64 * 2) := by decide +kernel

/-- Both ways a completion is taken: the sequencer's event, and no event left. -/
theorem witness_IllegalCommandIsReported :
    Completing (busy 0x203 5 0 0 0) ∧ Completing (withScript (busy 0x203 5 0 0 0) []) ∧
      decode (busy 0x203 5 0 0 0).lcmd = .error .reservedBits ∧
      decode (withScript (busy 0x203 5 0 0 0) []).lcmd = .error .reservedBits :=
  ⟨⟨rfl, .inr ⟨[], rfl⟩⟩, ⟨rfl, .inl rfl⟩, by decide +kernel, by decide +kernel⟩

/-- One completion for each code, and one with no event left. -/
theorem witness_EveryCompletionReportsOneCode :
    (Completing (busy 0x203 5 0 0 0) ∧ decode (busy 0x203 5 0 0 0).lcmd = .error .reservedBits) ∧
      (Completing (busy 1 5 0 0 0) ∧ decode (busy 1 5 0 0 0).lcmd = .ok .div ∧ (busy 1 5 0 0 0).lb = 0) ∧
      (Completing (busy 2 5 0 0 0) ∧ decode (busy 2 5 0 0 0).lcmd = .ok .divs ∧ (busy 2 5 0 0 0).lscl = 0) ∧
      Completing (withScript (busy 3 5 0 0 0) []) ∧ decode (withScript (busy 3 5 0 0 0) []).lcmd = .ok .shl :=
  ⟨⟨⟨rfl, .inr ⟨[], rfl⟩⟩, by decide +kernel⟩, ⟨⟨rfl, .inr ⟨[], rfl⟩⟩, by decide +kernel, rfl⟩,
    ⟨⟨rfl, .inr ⟨[], rfl⟩⟩, by decide +kernel, rfl⟩, ⟨rfl, .inl rfl⟩, by decide +kernel⟩

theorem witness_AcceptanceLatchesOperands :
    (idle (.host (.write 0x090 8 0x203))).phase = .idle ∧
      (idle (.host (.write 0x090 8 0x203))).script = .host (.write 0x090 8 0x203) :: [] := by decide

theorem witness_OverrunIsIgnored :
    ({ busy 1 5 7 0 0 with script := [.host (.write 0x090 8 5)] } : State).phase = .busy ∧
      ({ busy 1 5 7 0 0 with script := [.host (.write 0x090 8 5)] } : State).script
        = .host (.write 0x090 8 5) :: [] := by decide

/-- The first and the last offset of each range. -/
theorem witness_ReservedAndReadOnlyAccesses :
    ReservedOffset 0x0B8 ∧ ReservedOffset 0x140 ∧ ReservedOffset 0x1F8 ∧ ReadOnlyOffset 0x098 ∧ ReadOnlyOffset 0x0B0 ∧
      ReadOnlyOffset 0x0C0 ∧ ReadOnlyOffset 0x138 := by
  unfold ReservedOffset ReadOnlyOffset; decide

theorem witness_HostAccessesHaveOnlyTheirEffect :
    0x1F8 % 8 = 0 ∧ 0x1F8 < 0x200 ∧ Reg.word .opb 7 ∈ operandRegs ∧
      HostWriting (idle (.host (.write 0x078 8 5))) (.word .opb 7) 5 ∧
      HostWriting (idle (.host (.write 0x090 8 5))) .cmd 5 :=
  ⟨by decide, by decide, by decide, ⟨[], rfl⟩, ⟨[], rfl⟩⟩

/-- An access inside, and one outside for each of R63's three reasons. -/
theorem witness_OutsideAccessesAreRefused :
    (8 = 8 ∧ 0x1F8 % 8 = 0 ∧ 0x1F8 < 0x200) ∧ ¬ (4 = 8 ∧ 0 % 8 = 0 ∧ 0 < 0x200) ∧
      ¬ (8 = 8 ∧ 4 % 8 = 0 ∧ 4 < 0x200) ∧ ¬ (8 = 8 ∧ 0x200 % 8 = 0 ∧ 0x200 < 0x200) ∧
      (idle (.host (.read 4 8))).script = .host (.read 4 8) :: [] := by decide

theorem witness_BusWindowIsMapped (k : Nat) : 0x1FF < 0x200 ∧ Config.base k + 0x200 ≤ Config.base k + 0x200 :=
  ⟨by decide, Nat.le_refl _⟩

theorem witness_ResetClearsTheBlock :
    ({ busy 1 5 7 0 0 with script := [.reset] } : State).script = .reset :: [] := rfl

/-- The invariant's hypothesis, and steps that answer: an idle block, a completion, a host write, no reset. -/
theorem witness_step_hypotheses :
    Inv State.reset ∧ step State.reset = .next State.reset ∧ ¬ Resetting State.reset ∧
      Completing (busy 1 5 7 0 0) ∧ HostWriting (idle (.host (.write 0x080 8 5))) .scl 5 ∧
      Resetting (idle .reset) := by
  refine ⟨⟨?_, ?_, ?_, ?_, ?_, ?_, ?_⟩, rfl, ?_, ⟨rfl, .inr ⟨[], rfl⟩⟩, ⟨[], rfl⟩, ⟨[], rfl⟩⟩
  · unfold BusyIsPhase; decide
  · unfold NotBusyAndDone; decide
  · unfold CodesAgree; decide
  · unfold CmprIsCode; decide
  · intro h; exact absurd h (by decide)
  · intro h; exact absurd h (by decide)
  · intro _ _; decide +kernel
  · rintro ⟨rest, h⟩; exact absurd h (by simp [State.reset])

/-- A command really changes what `ResultsWrittenOnlyByCompletions` and `FlagsChangeOnlyAtTheirEvents` speak of. -/
theorem witness_completion_changes_results :
    (after (busy 1 7 5 0 0)).q ≠ (busy 1 7 5 0 0).q ∧ (after (busy 1 7 5 0 0)).r ≠ (busy 1 7 5 0 0).r ∧
      (after (busy 2 7 0 5 0)).rs ≠ (busy 2 7 0 5 0).rs ∧ (after (busy 6 7 5 0 0)).cmpr ≠ (busy 6 7 5 0 0).cmpr ∧
      (after (busy 0 7 5 0 0)).rc ≠ (busy 0 7 5 0 0).rc ∧ (after (busy 7 5 7 0 0)).status.borrow = true ∧
      (after (busy 1 7 0 0 0)).status.dz = true := by decide +kernel

/-- A host write really changes what `OperandsWrittenOnlyByHost` speaks of. -/
theorem witness_host_write_changes_operands :
    (after (idle (.host (.write 0x038 8 5)))).opa ≠ 0 ∧ (after (idle (.host (.write 0x040 8 5)))).opb ≠ 0 ∧
      (after (idle (.host (.write 0x080 8 5)))).scl ≠ 0 ∧ (after (idle (.host (.write 0x088 8 5)))).shamt ≠ 0 ∧
      (after (idle (.host (.write 0x090 8 5)))).cmd ≠ 0 := by decide +kernel

theorem witness_BusyOrDoneAfterAcceptance :
    (idle (.host (.write 0x090 8 5))).phase = .idle ∧ HostWriting (idle (.host (.write 0x090 8 5))) .cmd 5 ∧
      (busy 1 5 7 0 0).status.busy = true ∧ (after (busy 1 5 7 0 0)).status.done = true :=
  ⟨rfl, ⟨[], rfl⟩, rfl, by decide +kernel⟩

/-- Two states with the same latches and different registers, and a command in each. -/
theorem witness_ResultsDependOnlyOnLatches (s : State) (hs : s = { busy 1 5 7 0 0 with opa := 9, q := 3, rc := 1 }) :
    (busy 1 5 7 0 0).la = s.la ∧ (busy 1 5 7 0 0).lb = s.lb ∧ (busy 1 5 7 0 0).lscl = s.lscl ∧
      (busy 1 5 7 0 0).lshamt = s.lshamt ∧ (busy 1 5 7 0 0).opa ≠ s.opa ∧
      exec .div (busy 1 5 7 0 0) = .next (ran .div (busy 1 5 7 0 0)) ∧ exec .div s = .next (ran .div s) := by
  subst hs
  exact ⟨rfl, rfl, rfl, rfl, by decide +kernel, rfl, rfl⟩

/-- A run with a reset; and a command in progress with no reset to come, with a second command after it, and with no
event left. -/
theorem witness_EveryCommandCompletes :
    (∀ ev ∈ ({ busy 1 5 7 0 0 with script := [.host (.read 0x1F8 8), .reset, .host (.write 0x090 8 5)] } : State).script,
      interfaceEvent ev = true) ∧
      ((∀ ev ∈ ({ busy 1 5 7 0 0 with script := [.host (.read 0 8), .sequencer, .host (.write 0x090 8 5)] } : State).script,
          interfaceEvent ev = true ∧ ev ≠ .reset) ∧
        ({ busy 1 5 7 0 0 with script := [.host (.read 0 8), .sequencer, .host (.write 0x090 8 5)] } : State).phase = .busy) ∧
      (withScript (busy 1 5 7 0 0) []).phase = .busy ∧ .reset ∉ (withScript (busy 1 5 7 0 0) []).script := by decide

/-- The block after SHL of 5 by 1 has completed, with events to come that are no command and no reset. -/
def shlDone : State :=
  { after { busy 3 5 0 0 1 with script := [] } with
    script := [.host (.write 0x000 8 9), .host (.write 0x0C0 8 9), .sequencer, .host (.read 0x098 8)] }

theorem witness_ResultsStayVisibleAfterDone :
    Inv shlDone ∧ shlDone.status.done = true ∧ shlDone.q = 10 ∧ ¬ Resetting shlDone ∧
      ∀ ev ∈ shlDone.script, noCommandEvent ev = true := by
  refine ⟨⟨?_, ?_, ?_, ?_, ?_, fun _ => ⟨⟨?_, ?_⟩, ?_⟩, ?_⟩, by decide +kernel, by decide +kernel, ?_, by decide +kernel⟩
  · unfold BusyIsPhase; decide +kernel
  · unfold NotBusyAndDone; decide +kernel
  · unfold CodesAgree; decide +kernel
  · unfold CmprIsCode; decide +kernel
  · intro h; exact absurd h (by decide +kernel)
  · intro h; exact absurd h (by decide +kernel)
  · rintro ⟨e, h⟩; cases (show decode shlDone.cmd = .ok .shl by decide +kernel).symm.trans h
  · intro h; exact absurd h (by decide +kernel)
  · intro _ h; exact absurd h (by decide +kernel)
  · rintro ⟨rest, h⟩; cases h

theorem witness_OperandWritesDuringCommandAreSafe :
    (busy 1 5 7 0 0).phase = .busy ∧ Reg.scl ∈ operandRegs ∧ Reg.word .opa 0 ∈ operandRegs := by decide

theorem witness_InstancesAreIndependent :
    platformStep [idle (.host (.write 0x080 8 5)), State.reset] 0
      = .next [after (idle (.host (.write 0x080 8 5))), State.reset] := rfl

/-- The addresses next to the ranges the frames leave out, and a byte within a register. -/
theorem witness_addresses :
    (¬ (0x098 ≤ 0x097 ∧ 0x097 < 0x0A8) ∧ ¬ (0x0C0 ≤ 0x097 ∧ 0x097 < 0x100)) ∧
      (¬ (0x098 ≤ 0x0A8 ∧ 0x0A8 < 0x0A8) ∧ ¬ (0x0C0 ≤ 0x0BF ∧ 0x0BF < 0x100)) ∧
      (¬ (0x098 ≤ 0x0B0 ∧ 0x0B0 < 0x0B0) ∧ ¬ (0x0B0 ≤ 0x0B8 ∧ 0x0B8 < 0x0B8)) ∧
      (¬ (0x0C0 ≤ 0x100 ∧ 0x100 < 0x100) ∧ ¬ (0x0C0 ≤ 0x140 ∧ 0x140 < 0x140)) ∧ 7 < 8 := by decide

theorem witness_frames (i : Instr) (s : State) : ∃ t, exec i s = .next t := by cases i <;> exact ⟨_, rfl⟩

/-- The word order and its reverse. -/
theorem witness_LdLoadsInAnyOrder :
    (ldStmts .opa allOnes).Perm (ldStmts .opa allOnes) ∧ (ldStmts .opb 5).reverse.Perm (ldStmts .opb 5) :=
  ⟨List.Perm.refl _, List.reverse_perm _⟩

end Sys2Proof.Tests
end

section
/-! PROOFS, 00_scope.md R6: a command's effect is read off the latches, and completion puts that effect in every register
the command writes. -/

namespace Sys2Proof.Machine

/-- The registers in which a completion puts a value of the effect, whatever they held before. -/
def Effect.Writes (e : Effect) : Reg → Prop
  | .word .q _ => e.q.isSome
  | .word .r _ => e.r.isSome
  | .rs => e.rs.isSome
  | .cmpr => e.cmpr.isSome
  | .word .opa _ | .word .opb _ | .scl | .shamt | .cmd | .status | .rc => False

theorem mem_wideRegs {x : Wide} {reg : Reg} : reg ∈ wideRegs x ↔ ∃ j, reg = .word x j := by
  constructor
  · intro h
    obtain ⟨j, -, rfl⟩ := List.mem_map.mp h
    exact ⟨j, rfl⟩
  · rintro ⟨j, rfl⟩
    have hj : ∀ j, j ∈ wordIndices := by decide
    exact List.mem_map_of_mem (hj j)

theorem getD_eq_getD_of_isSome {α : Type} {o : Option α} (h : o.isSome) (a b : α) : o.getD a = o.getD b :=
  (Option.get_eq_getD o (h := h)).symm.trans (Option.get_eq_getD o)

/-- A register that the effect writes does not depend on the state in which the command completes. -/
theorem readReg_complete_of_writes {e : Effect} {reg : Reg} (h : e.Writes reg) (s₁ s₂ : State) :
    readReg (complete s₁ e) reg = readReg (complete s₂ e) reg := by
  match reg, h with
  | .word .q j, h => exact congrArg (wordOf · j) (getD_eq_getD_of_isSome h s₁.q s₂.q)
  | .word .r j, h => exact congrArg (wordOf · j) (getD_eq_getD_of_isSome h s₁.r s₂.r)
  | .rs, h => exact getD_eq_getD_of_isSome h s₁.rs s₂.rs
  | .cmpr, h => exact getD_eq_getD_of_isSome h s₁.cmpr s₂.cmpr

theorem divEffect_writes_q_r (s : State) : (divEffect s).q.isSome ∧ (divEffect s).r.isSome := by
  unfold divEffect
  split <;> exact ⟨rfl, rfl⟩

theorem divsEffect_writes_q_rs (s : State) : (divsEffect s).q.isSome ∧ (divsEffect s).rs.isSome := by
  unfold divsEffect
  split <;> exact ⟨rfl, rfl⟩

/-- R92: every command writes the registers of its "writes" column, on every path. -/
theorem effectOf_writes {i : Instr} {reg : Reg} (h : reg ∈ writtenRegs i) (s : State) : (effectOf i s).Writes reg := by
  cases i with
  | div =>
    obtain hq | hr := List.mem_append.mp h
    · obtain ⟨j, rfl⟩ := mem_wideRegs.mp hq
      exact (divEffect_writes_q_r s).1
    · obtain ⟨j, rfl⟩ := mem_wideRegs.mp hr
      exact (divEffect_writes_q_r s).2
  | divs =>
    obtain rfl | hq := List.mem_cons.mp h
    · exact (divsEffect_writes_q_rs s).2
    · obtain ⟨j, rfl⟩ := mem_wideRegs.mp hq
      exact (divsEffect_writes_q_rs s).1
  | shl | shr | subb bin =>
    obtain ⟨j, rfl⟩ := mem_wideRegs.mp h
    rfl
  | cmps | cmp =>
    obtain rfl := List.mem_singleton.mp h
    rfl

/-- R6, R67: Execute reads the four operand latches and nothing else of the state. -/
theorem effectOf_congr_latches (i : Instr) {s₁ s₂ : State} (ha : s₁.la = s₂.la) (hb : s₁.lb = s₂.lb)
    (hscl : s₁.lscl = s₂.lscl) (hshamt : s₁.lshamt = s₂.lshamt) : effectOf i s₁ = effectOf i s₂ := by
  cases i with
  | div => simp only [effectOf, divEffect, ha, hb]
  | divs => simp only [effectOf, divsEffect, ha, hscl]
  | shl => simp only [effectOf, shlEffect, ha, hshamt]
  | shr => simp only [effectOf, shrEffect, ha, hshamt]
  | cmps => simp only [effectOf, cmpsEffect, ha, hscl]
  | cmp => simp only [effectOf, cmpEffect, ha, hb]
  | subb bin => simp only [effectOf, subbEffect, ha, hb]

/-- Settles O48: equal latches give equal effects, and a completion writes the effect, not what the state held. -/
theorem resultsDependOnlyOnLatches : Obligations.ResultsDependOnlyOnLatches := by
  intro i s₁ s₂ t₁ t₂ ha hb hscl hshamt h₁ h₂
  have he : effectOf i s₁ = effectOf i s₂ := effectOf_congr_latches i ha hb hscl hshamt
  rw [exec_eq_complete, he] at h₁
  rw [exec_eq_complete] at h₂
  cases h₁
  cases h₂
  refine ⟨fun reg hreg => readReg_complete_of_writes (effectOf_writes hreg s₂) s₁ s₂, rfl, rfl, rfl, ?_⟩
  rintro bin rfl
  rfl

end Sys2Proof.Machine
end

section
/-! PROOFS, 10_state.md: what one step does to the registers and to STATUS, as one case split that the statements about
every step share. -/

namespace Sys2Proof.Machine

/-- R25 to R29, R65 to R68, R270: what a step from `s` leaves, by the event that it takes. -/
inductive StepKind (s : State) : State → Prop
  /-- Only operand registers and the environment's own data move: an idle turn, a read, an ignored write, a write to an
  operand register (R21 to R24, R64, R65). -/
  | inputs (opa opb : Val512) (scl shamt : Word) (evs : List Event) (rds : List ReadRecord)
      (hopa : opa ≠ s.opa → ∃ (i : Fin 8) (v : Word), HostWriting s (.word .opa i) v)
      (hopb : opb ≠ s.opb → ∃ (i : Fin 8) (v : Word), HostWriting s (.word .opb i) v)
      (hscl : scl ≠ s.scl → HostWriting s .scl scl) (hshamt : shamt ≠ s.shamt → HostWriting s .shamt shamt) :
      StepKind s { s with opa := opa, opb := opb, scl := scl, shamt := shamt, script := evs, reads := rds }
  /-- R66: a CMD write while idle. -/
  | accepted (c : Word) (evs : List Event) (hp : s.phase = .idle) (hw : HostWriting s .cmd c) :
      StepKind s (accept (withScript s evs) c)
  /-- R68: a CMD write while busy. -/
  | overran (c : Word) (evs : List Event) (hp : s.phase = .busy) (hw : HostWriting s .cmd c) :
      StepKind s (overrun (withScript s evs))
  /-- R67: a completion. -/
  | completed (evs : List Event) (hc : Completing s) : StepKind s (complete (withScript s evs) (latchedEffect s))
  /-- R270: the reset input. -/
  | wasReset (evs : List Event) (hr : Resetting s) : StepKind s (resetBlock (withScript s evs))

/-- An idle turn or a host read: no register moves. -/
theorem StepKind.quiet (s : State) (evs : List Event) (rds : List ReadRecord) :
    StepKind s { s with script := evs, reads := rds } :=
  .inputs s.opa s.opb s.scl s.shamt evs rds (absurd rfl) (absurd rfl) (absurd rfl) (absurd rfl)

/-- R20, R65: the step of a host write to a register. -/
theorem StepKind.of_writeReg {s : State} {reg : Reg} {v : Word} (evs : List Event) (hw : HostWriting s reg v) :
    StepKind s (writeReg (withScript s evs) reg v) := by
  obtain h | ⟨i, rfl, h⟩ | ⟨i, rfl, h⟩ | ⟨rfl, h⟩ | ⟨rfl, h⟩ | ⟨rfl, hp, h⟩ | ⟨rfl, hp, h⟩ :=
    writeReg_cases (withScript s evs) reg v <;> rw [h]
  · exact .quiet s evs s.reads
  · exact .inputs _ s.opb s.scl s.shamt evs s.reads (fun _ => ⟨i, v, hw⟩) (absurd rfl) (absurd rfl) (absurd rfl)
  · exact .inputs s.opa _ s.scl s.shamt evs s.reads (absurd rfl) (fun _ => ⟨i, v, hw⟩) (absurd rfl) (absurd rfl)
  · exact .inputs s.opa s.opb v s.shamt evs s.reads (absurd rfl) (absurd rfl) (fun _ => hw) (absurd rfl)
  · exact .inputs s.opa s.opb s.scl v evs s.reads (absurd rfl) (absurd rfl) (absurd rfl) (fun _ => hw)
  · exact .accepted v evs hp hw
  · exact .overran v evs hp hw

/-- R70: every step that answers a next state is of one of the kinds. -/
theorem stepKind_of_step {s t : State} (h : step s = .next t) : StepKind s t := by
  obtain ⟨-, -, rfl⟩ | ⟨-, rest, -, rfl⟩ | ⟨hp, hs, rfl⟩ | ⟨off, rest, -, -, rfl⟩ | ⟨off, v, rest, hs, hin, rfl⟩ |
    ⟨rest, hs, rfl⟩ := step_cases h
  · exact .quiet t t.script t.reads
  · exact .quiet s rest s.reads
  · exact .completed _ ⟨hp, hs⟩
  · exact .quiet s rest _
  · cases hreg : regAt off with
    | none =>
      rw [hostWrite, hreg]
      exact .quiet s rest s.reads
    | some reg =>
      obtain ⟨-, halign, hlt⟩ := of_decide_eq_true hin
      obtain rfl := regOff_of_regAt halign hlt hreg
      rw [hostWrite_regOff]
      exact .of_writeReg rest ⟨rest, hs⟩
  · exact .wasReset rest ⟨rest, hs⟩

/-- R31: the bits of STATUS, the reserved ones included. -/
theorem getLsbD_statusWord (st : Status) :
    (statusWord st).getLsbD 0 = st.busy ∧ (statusWord st).getLsbD 1 = st.done ∧ (statusWord st).getLsbD 2 = st.dz ∧
      (statusWord st).getLsbD 3 = st.ill ∧ (statusWord st).getLsbD 4 = st.borrow ∧
      (statusWord st).getLsbD 5 = st.ovr := by
  obtain ⟨busy, done, dz, ill, borrow, ovr⟩ := st
  revert busy done dz ill borrow ovr
  decide

/-- R31: STATUS has six bits. -/
theorem toNat_statusWord_lt (st : Status) : (statusWord st).toNat < 2 ^ 6 := by
  have h := st.busy.toNat_lt
  have h1 := st.done.toNat_lt
  have h2 := st.dz.toNat_lt
  have h3 := st.ill.toNat_lt
  have h4 := st.borrow.toNat_lt
  have h5 := st.ovr.toNat_lt
  rw [statusWord, BitVec.toNat_ofNat]
  omega

/-- Settles O33: each flag is the bit R31 gives it, and the word is below 2^6. -/
theorem statusBitsAreLaidOut : Obligations.StatusBitsAreLaidOut := by
  intro s
  obtain ⟨h0, h1, h2, h3, h4, h5⟩ := getLsbD_statusWord s.status
  refine ⟨windowWord_regOff s .status, h0, h1, h2, h3, h4, h5, fun k hk => ?_⟩
  exact Nat.testBit_lt_two_pow ((toNat_statusWord_lt s.status).trans_le (Nat.pow_le_pow_right (by decide) hk))

/-- Settles O45: the inputs move by a host write to them, acceptance takes the word written, and nothing else touches
them. -/
theorem operandsWrittenOnlyByHost : Obligations.OperandsWrittenOnlyByHost := by
  intro s t h hr
  cases stepKind_of_step h with
  | inputs opa opb scl shamt evs rds hopa hopb hscl hshamt => exact ⟨hopa, hopb, hscl, hshamt, absurd rfl⟩
  | accepted c evs hp hw => exact ⟨absurd rfl, absurd rfl, absurd rfl, absurd rfl, fun _ => ⟨hp, hw⟩⟩
  | overran | completed => exact ⟨absurd rfl, absurd rfl, absurd rfl, absurd rfl, absurd rfl⟩
  | wasReset evs hreset => exact absurd hreset hr

end Sys2Proof.Machine
end

section
/-! PROOFS, 10_state.md R25 to R31: which commands write each result register and BORROW, read off the command's effect,
and with which codes. -/

namespace Sys2Proof.Machine

/-- R67, R242: the latched word is a command's, or illegal. -/
theorem latchedEffect_cases (s : State) :
    (∃ i, decode s.lcmd = .ok i ∧ latchedEffect s = effectOf i s) ∨
      (∃ e, decode s.lcmd = .error e ∧ latchedEffect s = illegalEffect) := by
  unfold latchedEffect
  cases decode s.lcmd with
  | ok i => exact .inl ⟨i, rfl, rfl⟩
  | error e => exact .inr ⟨e, rfl, rfl⟩

theorem isSome_of_getD_ne {α : Type} {o : Option α} {a : α} (h : o.getD a ≠ a) : o.isSome := by
  cases o with
  | none => exact absurd rfl h
  | some b => rfl

/-- R242: a part of the effect that a completion puts in a register, which an illegal word does not have, is that of a
legal command. -/
theorem exists_instr_of_changed {α : Type} (part : Effect → Option α) (hill : part illegalEffect = none) {s : State}
    {old : α} (h : (part (latchedEffect s)).getD old ≠ old) :
    ∃ i, decode s.lcmd = .ok i ∧ (part (effectOf i s)).isSome := by
  have hsome := isSome_of_getD_ne h
  obtain ⟨i, hi, he⟩ | ⟨e, -, he⟩ := latchedEffect_cases s
  · exact ⟨i, hi, he ▸ hsome⟩
  · rw [he, hill] at hsome
    cases hsome

/-- R190: what DIV does not write. -/
theorem divEffect_unwritten (s : State) :
    (divEffect s).rs = none ∧ (divEffect s).cmpr = none ∧ (divEffect s).borrow = none := by
  unfold divEffect
  split <;> exact ⟨rfl, rfl, rfl⟩

/-- R170: what DIVS does not write. -/
theorem divsEffect_unwritten (s : State) :
    (divsEffect s).r = none ∧ (divsEffect s).cmpr = none ∧ (divsEffect s).borrow = none := by
  unfold divsEffect
  split <;> exact ⟨rfl, rfl, rfl⟩

/-- R25: the commands that write Q. -/
theorem instr_of_effectOf_q {i : Instr} {s : State} (h : (effectOf i s).q.isSome) :
    i = .div ∨ i = .divs ∨ i = .shl ∨ i = .shr ∨ ∃ bin, i = .subb bin := by
  cases i with
  | cmps | cmp => cases h
  | _ => simp

/-- R26: DIV alone writes R. -/
theorem instr_of_effectOf_r {i : Instr} {s : State} (h : (effectOf i s).r.isSome) : i = .div := by
  cases i with
  | div => rfl
  | divs => simp [effectOf, divsEffect_unwritten] at h
  | _ => cases h

/-- R27: DIVS alone writes RS. -/
theorem instr_of_effectOf_rs {i : Instr} {s : State} (h : (effectOf i s).rs.isSome) : i = .divs := by
  cases i with
  | divs => rfl
  | div => simp [effectOf, divEffect_unwritten] at h
  | _ => cases h

/-- R28: the compares alone write CMPR. -/
theorem instr_of_effectOf_cmpr {i : Instr} {s : State} (h : (effectOf i s).cmpr.isSome) : i = .cmps ∨ i = .cmp := by
  cases i with
  | cmps => exact .inl rfl
  | cmp => exact .inr rfl
  | div => simp [effectOf, divEffect_unwritten] at h
  | divs => simp [effectOf, divsEffect_unwritten] at h
  | _ => cases h

/-- R31: SUBB alone writes BORROW. -/
theorem instr_of_effectOf_borrow {i : Instr} {s : State} (h : (effectOf i s).borrow.isSome) : ∃ bin, i = .subb bin := by
  cases i with
  | subb bin => exact ⟨bin, rfl⟩
  | div => simp [effectOf, divEffect_unwritten] at h
  | divs => simp [effectOf, divsEffect_unwritten] at h
  | _ => cases h

theorem divEffect_code_ne_illegalCommand (s : State) : (divEffect s).code ≠ .illegalCommand := by
  unfold divEffect
  split <;> simp

theorem divsEffect_code_ne_illegalCommand (s : State) : (divsEffect s).code ≠ .illegalCommand := by
  unfold divsEffect
  split <;> simp

/-- R242, R243: no legal command reports IllegalCommand. -/
theorem effectOf_code_ne_illegalCommand (i : Instr) (s : State) : (effectOf i s).code ≠ .illegalCommand := by
  cases i with
  | div => exact divEffect_code_ne_illegalCommand s
  | divs => exact divsEffect_code_ne_illegalCommand s
  | _ => exact Code.noConfusion

/-- R241: the divisions alone report DivideByZero. -/
theorem instr_of_divideByZero {i : Instr} {s : State} (h : (effectOf i s).code = .divideByZero) :
    i = .div ∨ i = .divs := by
  cases i with
  | div => exact .inl rfl
  | divs => exact .inr rfl
  | _ => cases h

/-- R242: the latched word is illegal exactly when its completion reports IllegalCommand. -/
theorem latchedEffect_code_eq_illegalCommand_iff (s : State) :
    (latchedEffect s).code = .illegalCommand ↔ ∃ e, decode s.lcmd = .error e := by
  obtain ⟨i, hi, he⟩ | ⟨e, hi, he⟩ := latchedEffect_cases s
  · simp [he, hi, effectOf_code_ne_illegalCommand]
  · simp [he, hi, illegalEffect]

/-- R241: a latched word whose completion reports DivideByZero is a division. -/
theorem decode_of_divideByZero {s : State} (h : (latchedEffect s).code = .divideByZero) :
    decode s.lcmd = .ok .div ∨ decode s.lcmd = .ok .divs := by
  obtain ⟨i, hi, he⟩ | ⟨e, -, he⟩ := latchedEffect_cases s
  · obtain rfl | rfl := instr_of_divideByZero (he ▸ h)
    · exact .inl hi
    · exact .inr hi
  · rw [he] at h
    cases h

/-- R28: a three-way result stored in CMPR is −1, 0 or +1. -/
theorem cmprWord_threeWay (a b : Nat) :
    cmprWord (threeWay a b) = 0xFFFFFFFFFFFFFFFF ∨ cmprWord (threeWay a b) = 0 ∨ cmprWord (threeWay a b) = 1 := by
  unfold threeWay
  split
  · exact .inl (by decide)
  · split
    · exact .inr (.inl (by decide))
    · exact .inr (.inr (by decide))

/-- Settles O44: outside a completion no result register moves, and a completion moves those of its command. -/
theorem resultsWrittenOnlyByCompletions : Obligations.ResultsWrittenOnlyByCompletions := by
  intro s t h hr
  cases stepKind_of_step h with
  | inputs | accepted | overran => exact ⟨absurd rfl, absurd rfl, absurd rfl, absurd rfl, absurd rfl⟩
  | wasReset evs hreset => exact absurd hreset hr
  | completed evs hc =>
    refine ⟨fun hq => ⟨hc, ?_⟩, fun hR => ⟨hc, ?_⟩, fun hrs => ⟨hc, ?_⟩, fun hcmpr => ⟨hc, ?_⟩, fun _ => hc⟩
    · obtain ⟨i, hi, hsome⟩ := exists_instr_of_changed Effect.q rfl hq
      exact ⟨i, hi, instr_of_effectOf_q hsome⟩
    · obtain ⟨i, hi, hsome⟩ := exists_instr_of_changed Effect.r rfl hR
      exact instr_of_effectOf_r hsome ▸ hi
    · obtain ⟨i, hi, hsome⟩ := exists_instr_of_changed Effect.rs rfl hrs
      exact instr_of_effectOf_rs hsome ▸ hi
    · obtain ⟨i, hi, hsome⟩ := exists_instr_of_changed Effect.cmpr rfl hcmpr
      obtain rfl | rfl := instr_of_effectOf_cmpr hsome
      · exact .inl hi
      · exact .inr hi

/-- Settles O46: acceptance sets BUSY and clears DONE and OVR, overrun sets OVR, a completion does the rest, and no other
step moves a flag. -/
theorem flagsChangeOnlyAtTheirEvents : Obligations.FlagsChangeOnlyAtTheirEvents := by
  intro s t h hr
  cases stepKind_of_step h with
  | wasReset evs hreset => exact absurd hreset hr
  | inputs => simp +contextual
  | accepted c evs hp hw => simp [hp, Exists.intro c hw]
  | overran c evs hp hw => simp +contextual [hp, Exists.intro c hw]
  | completed evs hc =>
    have hborrow : (latchedEffect s).borrow.getD s.status.borrow ≠ s.status.borrow →
        ∃ bin, decode s.lcmd = .ok (.subb bin) := by
      intro hb
      obtain ⟨i, hi, hsome⟩ := exists_instr_of_changed Effect.borrow rfl hb
      obtain ⟨bin, rfl⟩ := instr_of_effectOf_borrow hsome
      exact ⟨bin, hi⟩
    simp +contextual [hc, hborrow]

end Sys2Proof.Machine
end

section
/-! PROOFS, 10_state.md R28, R32 to R34 and 60_exceptions.md R248: every kind of step keeps the invariant of the block. -/

namespace Sys2Proof.Machine

/-- The invariant does not speak of the operand registers or of the environment's own data. -/
theorem Inv.withInputs {s : State} (h : Inv s) (opa opb : Val512) (scl shamt : Word) (evs : List Event)
    (rds : List ReadRecord) :
    Inv { s with opa := opa, opb := opb, scl := scl, shamt := shamt, script := evs, reads := rds } where
  busyIsPhase := h.busyIsPhase
  notBusyAndDone := h.notBusyAndDone
  codesAgree := h.codesAgree
  cmprIsCode := h.cmprIsCode
  latchedIsCmd := h.latchedIsCmd
  statusDescribesCmd := h.statusDescribesCmd
  freshIsClear := h.freshIsClear

theorem Inv.withScript {s : State} (h : Inv s) (evs : List Event) : Inv (withScript s evs) :=
  h.withInputs s.opa s.opb s.scl s.shamt evs s.reads

/-- R271: the reset state is fresh, and everything in it is clear. -/
theorem inv_reset : Inv State.reset where
  busyIsPhase := iff_of_false Bool.false_ne_true Phase.noConfusion
  notBusyAndDone := fun hbd => Bool.false_ne_true hbd.1
  codesAgree := by unfold CodesAgree; decide
  cmprIsCode := .inr (.inl rfl)
  latchedIsCmd := fun _ => rfl
  statusDescribesCmd := fun hdone => absurd hdone Bool.false_ne_true
  freshIsClear := fun _ _ => ⟨rfl, rfl, rfl, rfl, rfl, rfl, rfl⟩

/-- R270, R271: a reset, whatever the block was doing, leaves the registers of the reset state. -/
theorem inv_resetBlock (s : State) : Inv (resetBlock s) := inv_reset.withInputs 0 0 0 0 s.script s.reads

/-- R66: acceptance sets BUSY and clears DONE, and leaves the last completion's codes. -/
theorem Inv.accept {s : State} (h : Inv s) (c : Word) : Inv (accept s c) where
  busyIsPhase := iff_of_true rfl rfl
  notBusyAndDone := fun hbd => Bool.false_ne_true hbd.2
  codesAgree := h.codesAgree
  cmprIsCode := h.cmprIsCode
  latchedIsCmd := fun _ => rfl
  statusDescribesCmd := fun hdone => absurd hdone Bool.false_ne_true
  freshIsClear := fun hbusy => absurd hbusy Bool.false_ne_true.symm

/-- R68: overrun sets OVR, which the invariant leaves free while BUSY is 1. -/
theorem Inv.overrun {s : State} (h : Inv s) (hp : s.phase = .busy) : Inv (overrun s) where
  busyIsPhase := h.busyIsPhase
  notBusyAndDone := h.notBusyAndDone
  codesAgree := h.codesAgree
  cmprIsCode := h.cmprIsCode
  latchedIsCmd := h.latchedIsCmd
  statusDescribesCmd := h.statusDescribesCmd
  freshIsClear := by
    have hbusy : s.status.busy = true := h.busyIsPhase.mpr hp
    exact fun hidle => absurd (hbusy.symm.trans hidle) Bool.false_ne_true.symm

/-- R34: RC, DZ and ILL are the one code of the completion. -/
theorem codesAgree_complete (s : State) (e : Effect) : CodesAgree (complete s e) := by
  have key : ∀ code : Code, (codeWord code = 0 ↔ code ≠ .divideByZero ∧ code ≠ .illegalCommand) ∧
      (codeWord code = 0xFFFFFFFFFFFFFFFF ↔ code = .divideByZero) ∧
      (codeWord code = 0xFFFFFFFFFFFFFFFE ↔ code = .illegalCommand) := by
    intro code
    cases code <;> decide
  obtain ⟨hzero, hdz, hill⟩ := key e.code
  simp only [CodesAgree, complete_rc, complete_status, completeStatus_dz, completeStatus_ill, decide_eq_true_eq,
    decide_eq_false_iff_not]
  refine ⟨hzero, hdz, hill, fun ⟨hd, hi⟩ => ?_⟩
  rw [hd] at hi
  cases hi

/-- R28: a completion leaves CMPR or puts a three-way result in it. -/
theorem cmprIsCode_complete {s : State} (h : CmprIsCode s) : CmprIsCode (complete s (latchedEffect s)) := by
  by_cases hkept : (latchedEffect s).cmpr.getD s.cmpr = s.cmpr
  · rwa [CmprIsCode, complete_cmpr, hkept]
  · rw [CmprIsCode, complete_cmpr]
    obtain ⟨i, hi, hsome⟩ := exists_instr_of_changed Effect.cmpr rfl hkept
    have he : latchedEffect s = effectOf i s := by rw [latchedEffect, hi]
    rw [he]
    obtain rfl | rfl := instr_of_effectOf_cmpr hsome <;> exact cmprWord_threeWay _ _

/-- R67, R248: a completion describes the word in LCMD, which is the word CMD reads as. -/
theorem statusDescribesCmd_complete {s : State} (hcmd : s.lcmd = s.cmd) :
    StatusDescribesCmd (complete s (latchedEffect s)) := by
  intro _
  simp only [complete_status, completeStatus_ill, completeStatus_dz, complete_cmd, decide_eq_true_eq, ← hcmd]
  exact ⟨latchedEffect_code_eq_illegalCommand_iff s, decode_of_divideByZero⟩

/-- R67: a completion clears BUSY, sets DONE and reports one code of the latched word. -/
theorem Inv.complete {s : State} (h : Inv s) (hp : s.phase = .busy) : Inv (complete s (latchedEffect s)) where
  busyIsPhase := iff_of_false Bool.false_ne_true Phase.noConfusion
  notBusyAndDone := fun hbd => Bool.false_ne_true hbd.1
  codesAgree := codesAgree_complete s _
  cmprIsCode := cmprIsCode_complete h.cmprIsCode
  latchedIsCmd := fun hbusy => Phase.noConfusion hbusy
  statusDescribesCmd := statusDescribesCmd_complete (h.latchedIsCmd hp)
  freshIsClear := fun _ hdone => absurd hdone Bool.false_ne_true.symm

/-- Settles O43: each kind of step keeps the invariant. -/
theorem invariantIsKept : Obligations.InvariantIsKept := by
  intro s t hinv h
  cases stepKind_of_step h with
  | inputs opa opb scl shamt evs rds => exact hinv.withInputs opa opb scl shamt evs rds
  | accepted c evs => exact (hinv.withScript evs).accept c
  | overran c evs hp => exact (hinv.withScript evs).overrun hp
  | completed evs hc => exact (hinv.withScript evs).complete hc.1
  | wasReset evs => exact inv_resetBlock _

/-- R66: the step of a CMD write while idle is acceptance. -/
theorem step_accept {s : State} {c : Word} (hp : s.phase = .idle) (hw : HostWriting s .cmd c) :
    step s = .next (accept (withScript s s.script.tail) c) := by
  obtain ⟨rest, hs⟩ := hw
  rw [step_host_write hs, hs, List.tail_cons, writeReg, writeCmd, withScript_phase, hp]

/-- R33: one of BUSY and DONE, and not both, is exactly one. -/
theorem busy_iff_not_done {s : State} (hnot : NotBusyAndDone s) (hor : s.status.busy = true ∨ s.status.done = true) :
    s.status.busy = true ↔ s.status.done = false := by
  rw [← Bool.not_eq_true]
  exact ⟨fun hb hd => hnot ⟨hb, hd⟩, hor.resolve_right⟩

/-- Settles O47: acceptance and completion each set one of the two and clear the other; the rest leaves both. -/
theorem busyOrDoneAfterAcceptance : Obligations.BusyOrDoneAfterAcceptance := by
  refine ⟨rfl, rfl, ?_, ?_⟩
  · rintro s t - h hp ⟨c, hw⟩
    rw [step_accept hp hw] at h
    cases h
    exact ⟨rfl, rfl⟩
  · intro s t hinv h hr hor
    cases stepKind_of_step h with
    | inputs | overran => exact busy_iff_not_done hinv.notBusyAndDone hor
    | accepted => exact iff_of_true rfl rfl
    | completed => exact iff_of_false Bool.false_ne_true Bool.false_ne_true.symm
    | wasReset evs hreset => exact absurd hreset hr

end Sys2Proof.Machine
end

section
/-! PROOFS, 20_memory.md R60 to R62: where the registers stand in the window, their words and bytes, and where the window
stands on the bus. -/

namespace Sys2Proof.Machine

set_option exponentiation.threshold 600

/-- R8: the low `k` words of a value, each at its place, make its value below `2^(64·k)`. -/
theorem toNat_mod_eq_sum_words {n : Nat} (x : BitVec n) (k : Nat) :
    x.toNat % 2 ^ (64 * k) = ∑ i ∈ Finset.range k, (wordOf x i).toNat * 2 ^ (64 * i) := by
  induction k with
  | zero => exact Nat.mod_one _
  | succ k ih =>
    rw [Finset.sum_range_succ, ← ih, toNat_wordOf, Nat.mul_succ, Nat.pow_add, Nat.mod_mul, Nat.mul_comm (2 ^ (64 * k))]

/-- Settles O36: each offset is the one of its register, and a value is the sum of its eight words at their places. -/
theorem windowHoldsTheRegisterMap : Obligations.WindowHoldsTheRegisterMap := by
  intro s
  have hword (x : Wide) (i : Nat) (hi : i < 8) : windowWord s (wideOff x + 8 * i) = wordOf (wideReg s x) i :=
    windowWord_regOff s (.word x ⟨i, hi⟩)
  refine ⟨fun i hi => ⟨hword .opa i hi, hword .opb i hi, hword .q i hi, hword .r i hi⟩, windowWord_regOff s .scl,
    windowWord_regOff s .shamt, windowWord_regOff s .cmd, windowWord_regOff s .status, windowWord_regOff s .rc,
    windowWord_regOff s .cmpr, windowWord_regOff s .rs, fun x => ?_⟩
  calc x.toNat
      _ = x.toNat % 2 ^ (64 * 8) := (Nat.mod_eq_of_lt x.isLt).symm
      _ = ∑ i ∈ Finset.range 8, (wordOf x i).toNat * 2 ^ (64 * i) := toNat_mod_eq_sum_words x 8
      _ = _ := by
        simp only [Finset.sum_range_succ, Finset.sum_range_zero, Nat.mul_zero, Nat.reduceMul, Nat.pow_zero, Nat.mul_one,
          Nat.zero_add]

/-- R20: every register stands at a multiple of 8. -/
theorem regOff_mod_eight (reg : Reg) : regOff reg % 8 = 0 := (of_decide_eq_true (inInterface_regOff reg)).2.1

/-- Settles O37: byte `k` of a register is cut from the register at the aligned offset below it. -/
theorem bytesAreLittleEndian : Obligations.BytesAreLittleEndian := by
  intro s reg k hk
  have halign := regOff_mod_eight reg
  have hbase : (regOff reg + k) / 8 * 8 = regOff reg := by omega
  have hbyte : (regOff reg + k) % 8 = k := by omega
  rw [windowByte, hbase, hbyte, windowWord_regOff, BitVec.extractLsb'_toNat, Nat.shiftRight_eq_div_pow]

/-- Settles O39: BASE is 0x200 times a slot, and the bus decodes the 0x200 addresses from it. -/
theorem busWindowIsMapped : Obligations.BusWindowIsMapped := by
  intro k
  refine ⟨Nat.dvd_mul_right _ _, fun off hoff => ?_, fun addr haddr => ?_⟩
  · have hin : Config.base k ≤ Config.base k + off ∧ Config.base k + off < Config.base k + Config.windowBytes :=
      ⟨Nat.le_add_right _ _, Nat.add_lt_add_left hoff _⟩
    rw [busOffset, busAddress, if_pos hin, Nat.add_sub_cancel_left]
  · refine if_neg fun ⟨hle, hlt⟩ => ?_
    exact haddr.elim (Nat.not_lt.mpr hle) (Nat.not_le.mpr hlt)

end Sys2Proof.Machine
end

section
/-! PROOFS, 20_memory.md R63 to R65: which host accesses have a step, and what each leaves. -/

namespace Sys2Proof.Machine

/-- R63: the interface, as R63 writes it. -/
theorem inInterface_iff {off bytes : Nat} : inInterface off bytes = true ↔ bytes = 8 ∧ off % 8 = 0 ∧ off < 0x200 :=
  decide_eq_true_iff

/-- R70: a step performs the next event, in the state with that event taken off. -/
theorem step_event {s : State} {ev : Event} {rest : List Event} (hs : s.script = ev :: rest) :
    step s = perform (withScript s rest) ev := by
  rw [step, stepScript, hs]

/-- R63: an access inside the interface has a next state. -/
theorem exists_hostStep_of_inInterface (s : State) {a : HostAccess} {off bytes : Nat}
    (ha : a = .read off bytes ∨ ∃ v, a = .write off bytes v) (hin : inInterface off bytes = true) :
    ∃ t, hostStep s a = .next t := by
  obtain rfl | ⟨v, rfl⟩ := ha
  · exact ⟨_, if_pos hin⟩
  · exact ⟨_, if_pos hin⟩

/-- R63: an access outside the interface is refused. -/
theorem hostStep_of_outside (s : State) {a : HostAccess} {off bytes : Nat}
    (ha : a = .read off bytes ∨ ∃ v, a = .write off bytes v) (hout : ¬ inInterface off bytes = true) :
    hostStep s a = .refused (.outsideInterface off bytes) := by
  obtain rfl | ⟨v, rfl⟩ := ha <;> exact if_neg hout

/-- Settles O38: an access is answered inside the interface and refused outside it. -/
theorem outsideAccessesAreRefused : Obligations.OutsideAccessesAreRefused := by
  intro s a off bytes rest hs ha
  rw [step_event hs, perform, ← inInterface_iff]
  by_cases hin : inInterface off bytes = true
  · obtain ⟨t, ht⟩ := exists_hostStep_of_inInterface (withScript s rest) ha hin
    rw [ht]
    exact ⟨iff_of_false nofun (not_not_intro hin), fun _ => ⟨t, rfl⟩⟩
  · exact ⟨iff_of_true (hostStep_of_outside _ ha hin) hin, fun h => absurd h hin⟩

/-- R64: a reserved offset is inside the interface, and no register has it. -/
theorem ReservedOffset.inInterface_and_regAt {off : Nat} (h : ReservedOffset off) :
    inInterface off 8 = true ∧ regAt off = none := by
  unfold ReservedOffset at h
  obtain ⟨k, hk⟩ : ∃ k : Fin 64, 8 * k.val = off := ⟨⟨off / 8, by omega⟩, by dsimp only; omega⟩
  refine ⟨inInterface_iff.mpr (by omega), ?_⟩
  rw [← hk, regAt_eq_none_iff]
  omega

/-- R64: a read-only offset is the one of a register that takes no host write. -/
theorem ReadOnlyOffset.exists_reg {off : Nat} (h : ReadOnlyOffset off) :
    ∃ reg, regOff reg = off ∧ ∀ s v, writeReg s reg v = s := by
  obtain rfl | rfl | rfl | rfl | ⟨hle, hlt, halign⟩ := h
  · exact ⟨.status, rfl, fun _ _ => rfl⟩
  · exact ⟨.rc, rfl, fun _ _ => rfl⟩
  · exact ⟨.cmpr, rfl, fun _ _ => rfl⟩
  · exact ⟨.rs, rfl, fun _ _ => rfl⟩
  · by_cases hq : off < 0x100
    · exact ⟨.word .q ⟨(off - 0x0C0) / 8, by omega⟩, by simp only [regOff, wideOff]; omega, fun _ _ => rfl⟩
    · exact ⟨.word .r ⟨(off - 0x100) / 8, by omega⟩, by simp only [regOff, wideOff]; omega, fun _ _ => rfl⟩

/-- Settles O34: a reserved offset has no register to read or write, and the register at a read-only one ignores the
write. -/
theorem reservedAndReadOnlyAccesses : Obligations.ReservedAndReadOnlyAccesses := by
  refine ⟨fun s off rest hoff hs => ?_, fun s off v rest hoff hs => ?_⟩
  · obtain ⟨hin, hnone⟩ := hoff.inInterface_and_regAt
    rw [step_host_read hin hs, hostRead, windowWord, hnone]
    rfl
  · obtain hres | hro := hoff
    · obtain ⟨hin, hnone⟩ := hres.inInterface_and_regAt
      rw [step_event hs, perform, hostStep, if_pos hin, hostWrite, hnone]
      rfl
    · obtain ⟨reg, rfl, hignored⟩ := hro.exists_reg
      rw [step_host_write hs, hignored]
      rfl

theorem mem_operandRegs {reg : Reg} :
    reg ∈ operandRegs ↔ reg = .scl ∨ reg = .shamt ∨ (∃ i, reg = .word .opa i) ∨ ∃ i, reg = .word .opb i := by
  simp only [operandRegs, List.mem_cons, List.mem_append, mem_wideRegs]

/-- R21, R22, R65: a write to a word of OPA or OPB puts the value in that word, and in no other word of the window. -/
theorem wordOf_wideReg_writeWide (s : State) {x : Wide} (hx : x = .opa ∨ x = .opb) (i : Fin 8) (v : Word) (y : Wide)
    (j : Fin 8) :
    wordOf (wideReg (writeWide s x i v) y) j = if y = x ∧ j = i then v else wordOf (wideReg s y) j := by
  obtain rfl | rfl := hx <;> cases y <;> simp [writeWide, wideReg, wordOf_setWord, Fin.ext_iff]

/-- R65: after a write to an operand register, that register reads as the value and every other as before. -/
theorem readReg_writeReg {reg : Reg} (h : reg ∈ operandRegs) (s : State) (v : Word) (other : Reg) :
    readReg (writeReg s reg v) other = if other = reg then v else readReg s other := by
  have hword (x : Wide) (hx : x = .opa ∨ x = .opb) (i : Fin 8) :
      readReg (writeReg s (.word x i) v) other = if other = .word x i then v else readReg s other := by
    cases other with
    | word y j => simpa only [readReg, writeReg, Reg.word.injEq] using wordOf_wideReg_writeWide s hx i v y j
    | _ => obtain rfl | rfl := hx <;> rfl
  obtain rfl | rfl | ⟨i, rfl⟩ | ⟨i, rfl⟩ := mem_operandRegs.mp h
  · cases other <;> rfl
  · cases other <;> rfl
  · exact hword .opa (.inl rfl) i
  · exact hword .opb (.inr rfl) i

/-- R38, R65: a write to an operand register leaves the command in progress as it was. -/
theorem phase_latches_writeReg {reg : Reg} (h : reg ∈ operandRegs) (s : State) (v : Word) :
    (writeReg s reg v).phase = s.phase ∧ LatchesKept s (writeReg s reg v) := by
  obtain rfl | rfl | ⟨i, rfl⟩ | ⟨i, rfl⟩ := mem_operandRegs.mp h <;> exact ⟨rfl, rfl, rfl, rfl, rfl, rfl⟩

/-- R66, R68: after a write to CMD the block is busy, with OVR set if it was busy before. -/
theorem writeCmd_busy (s : State) (c : Word) :
    (writeCmd s c).phase = .busy ∧ (s.phase = .busy → (writeCmd s c).status.ovr = true) := by
  cases hp : s.phase with
  | idle => rw [writeCmd, hp]; exact ⟨rfl, fun h => Phase.noConfusion h⟩
  | busy => rw [writeCmd, hp]; exact ⟨hp, fun _ => rfl⟩

/-- The window does not show the events to come. -/
theorem readReg_withScript (s : State) (evs : List Event) (reg : Reg) :
    readReg (withScript s evs) reg = readReg s reg := by
  cases reg <;> rfl

/-- Settles O35: reads, operand writes and CMD writes, each by the rule of its operation. -/
theorem hostAccessesHaveOnlyTheirEffect : Obligations.HostAccessesHaveOnlyTheirEffect := by
  refine ⟨fun s off rest halign hlt hs => ?_, fun s reg v hreg hw => ?_, fun s v hw => ?_⟩
  · exact step_host_read (inInterface_iff.mpr ⟨rfl, halign, hlt⟩) hs
  · obtain ⟨rest, hs⟩ := hw
    obtain ⟨hphase, hlatches⟩ := phase_latches_writeReg hreg (withScript s rest) v
    refine ⟨_, step_host_write hs, ?_, fun other hne => ?_, hphase, hlatches⟩
    · rw [readReg_writeReg hreg, if_pos rfl]
    · rw [readReg_writeReg hreg, if_neg hne, readReg_withScript]
  · obtain ⟨rest, hs⟩ := hw
    exact ⟨_, step_host_write hs, writeCmd_busy (withScript s rest) v⟩

end Sys2Proof.Machine
end

section
/-! PROOFS, 20_memory.md R66 to R68: acceptance, overrun, and the completion of the latched command. -/

namespace Sys2Proof.Machine

/-- R66: acceptance moves CMD and STATUS alone in the window. -/
theorem readReg_accept (s : State) (c : Word) {reg : Reg} (hcmd : reg ≠ .cmd) (hstatus : reg ≠ .status) :
    readReg (accept s c) reg = readReg s reg := by
  cases reg with
  | cmd => exact absurd rfl hcmd
  | status => exact absurd rfl hstatus
  | _ => rfl

/-- R68: overrun moves STATUS alone in the window. -/
theorem readReg_overrun (s : State) {reg : Reg} (hstatus : reg ≠ .status) :
    readReg (overrun s) reg = readReg s reg := by
  cases reg with
  | status => exact absurd rfl hstatus
  | _ => rfl

/-- Settles O31: the step is acceptance. -/
theorem acceptanceLatchesOperands : Obligations.AcceptanceLatchesOperands := by
  intro s c rest hp hs
  refine ⟨_, step_accept hp ⟨rest, hs⟩, rfl, rfl, rfl, rfl, rfl, rfl, rfl, rfl, fun reg hcmd hstatus => ?_, ?_, rfl⟩
  · rw [readReg_accept _ c hcmd hstatus, readReg_withScript]
  · rw [accept_script, hs]
    rfl

/-- R68: the step of a CMD write while busy is overrun. -/
theorem step_overrun {s : State} {c : Word} {rest : List Event} (hp : s.phase = .busy)
    (hs : s.script = .host (.write 0x090 8 c) :: rest) : step s = .next (overrun (withScript s rest)) := by
  rw [step_host_write (reg := .cmd) hs, writeReg, writeCmd, withScript_phase, hp]

/-- Settles O32: the step is overrun. -/
theorem overrunIsIgnored : Obligations.OverrunIsIgnored := by
  intro s c rest hp hs
  refine ⟨_, step_overrun hp hs, rfl, fun reg hstatus => ?_, hp, rfl, rfl, rfl, rfl, rfl, rfl, rfl⟩
  rw [readReg_overrun _ hstatus, readReg_withScript]

/-- R67: the sequencer's turn is the meaning of the latched command. -/
theorem sequencerTurn_eq_exec {s : State} {i : Instr} (hp : s.phase = .busy) (hi : decode s.lcmd = .ok i) :
    sequencerTurn s = exec i s := by
  rw [sequencerTurn, hp]
  dsimp only
  rw [completeCommand, hi]

/-- Settles O4: with no event left, or on its own event, the sequencer takes its turn. -/
theorem stepRunsTheLatchedCommand : Obligations.StepRunsTheLatchedCommand := by
  intro s i hp hi
  refine ⟨fun hs => ?_, fun rest hs => ?_⟩
  · rw [step, stepScript, hs]
    exact sequencerTurn_eq_exec hp hi
  · rw [step_event hs]
    exact sequencerTurn_eq_exec (s := withScript s rest) hp hi

/-- R94: a command's own word decodes to it. -/
theorem decode_encode (i : Instr) : decode (encode i) = .ok i := by
  cases i with
  | subb bin => revert bin; decide
  | _ => decide

theorem tableWord_toNat (c : Word) : tableWord 64 c.toNat = c := by
  rw [tableWord, Nat.mod_eq_of_lt c.isLt, BitVec.ofNat_toNat, BitVec.setWidth_eq]

/-- Settles O5: the placed word is accepted and the sequencer moves next, so it runs the word's command. -/
theorem placedCommandRuns : Obligations.PlacedCommandRuns := by
  intro s i
  rw [State.withFetchWord, tableWord_toNat]
  exact (stepRunsTheLatchedCommand (placeCommand s (encode i)) i rfl (decode_encode i)).2 s.script rfl

end Sys2Proof.Machine
end

section
/-! PROOFS, 20_memory.md R67, R71 and 70_reset_and_hazards.md R284: runs through the events to come. -/

namespace Sys2Proof.Machine

theorem writeReg_script (s : State) (reg : Reg) (v : Word) : (writeReg s reg v).script = s.script := by
  obtain h | ⟨i, -, h⟩ | ⟨i, -, h⟩ | ⟨-, h⟩ | ⟨-, h⟩ | ⟨-, -, h⟩ | ⟨-, -, h⟩ := writeReg_cases s reg v <;> rw [h] <;> rfl

theorem hostWrite_script (s : State) (off : Nat) (v : Word) : (hostWrite s off v).script = s.script := by
  cases hreg : regAt off with
  | none => rw [hostWrite, hreg]
  | some reg => rw [hostWrite, hreg]; exact writeReg_script s reg v

/-- R70: a step takes the next event off the script and adds none. -/
theorem script_of_step {s t : State} (h : step s = .next t) : t.script = s.script.tail := by
  obtain ⟨-, hs, rfl⟩ | ⟨-, rest, hs, rfl⟩ | ⟨-, -, rfl⟩ | ⟨off, rest, hs, -, rfl⟩ | ⟨off, v, rest, hs, -, rfl⟩ |
    ⟨rest, hs, rfl⟩ := step_cases h
  · rw [hs, List.tail_nil]
  · rw [hs]; rfl
  · rfl
  · rw [hs]; rfl
  · rw [hostWrite_script, hs]; rfl
  · rw [hs]; rfl

/-- R63, R67: the step of every event of the interface has a next state, with that event taken off. -/
theorem exists_step_of_interfaceEvent {s : State} {ev : Event} {rest : List Event} (hs : s.script = ev :: rest)
    (hev : interfaceEvent ev = true) : ∃ t, step s = .next t ∧ t.script = rest := by
  have hnext : ∃ t, perform (withScript s rest) ev = .next t := by
    match ev, hev with
    | .host (.read off bytes), hin => exact exists_hostStep_of_inInterface _ (.inl rfl) hin
    | .host (.write off bytes v), hin => exact exists_hostStep_of_inInterface _ (.inr ⟨v, rfl⟩) hin
    | .sequencer, _ => exact ⟨_, sequencerTurn_eq _⟩
    | .reset, _ => exact ⟨_, rfl⟩
  obtain ⟨t, ht⟩ := hnext
  rw [← step_event hs] at ht
  exact ⟨t, ht, by rw [script_of_step ht, hs, List.tail_cons]⟩

/-! ### Results stay visible -/

theorem interfaceEvent_of_noCommandEvent {ev : Event} (h : noCommandEvent ev = true) : interfaceEvent ev = true := by
  match ev, h with
  | .host (.read off bytes), h => exact h
  | .host (.write off bytes v), h => exact (Bool.and_eq_true_iff.mp h).1
  | .sequencer, _ => rfl

/-- R71: while idle, an event that is no CMD write and no reset leaves the block idle and every result as it was. -/
theorem exists_step_of_noCommandEvent {s : State} {ev : Event} {rest : List Event} (hp : s.phase = .idle)
    (hs : s.script = ev :: rest) (hev : noCommandEvent ev = true) :
    ∃ t, step s = .next t ∧ t.script = rest ∧ t.phase = .idle ∧ ∀ reg ∈ resultRegs, readReg t reg = readReg s reg := by
  obtain ⟨t, h, hrest⟩ := exists_step_of_interfaceEvent hs (interfaceEvent_of_noCommandEvent hev)
  refine ⟨t, h, hrest, ?_⟩
  cases stepKind_of_step h with
  | inputs =>
    refine ⟨hp, fun reg hreg => ?_⟩
    simp only [resultRegs, List.mem_cons, List.mem_append, mem_wideRegs] at hreg
    obtain rfl | rfl | rfl | rfl | ⟨j, rfl⟩ | ⟨j, rfl⟩ := hreg <;> rfl
  | accepted c evs _ hw =>
    obtain ⟨_, hw⟩ := hw
    cases hs.symm.trans hw
    exact absurd hev (by simp [noCommandEvent, regOff])
  | overran _ _ hbusy => cases hp.symm.trans hbusy
  | completed _ hc => cases hp.symm.trans hc.1
  | wasReset _ hr =>
    obtain ⟨_, hr⟩ := hr
    cases hs.symm.trans hr
    cases hev

/-- R71: so does any run of such events. -/
theorem exists_run_of_noCommandEvents (evs : List Event) {s : State} (hp : s.phase = .idle) (hs : s.script = evs)
    (hevs : ∀ ev ∈ evs, noCommandEvent ev = true) :
    ∃ t, core.run evs.length s = .next t ∧ ∀ reg ∈ resultRegs, readReg t reg = readReg s reg := by
  induction evs generalizing s with
  | nil => exact ⟨s, rfl, fun _ _ => rfl⟩
  | cons ev rest ih =>
    obtain ⟨hev, hrest⟩ := List.forall_mem_cons.mp hevs
    obtain ⟨m, hstep, hm, hidle, hkept⟩ := exists_step_of_noCommandEvent hp hs hev
    obtain ⟨t, hrun, hkept'⟩ := ih hidle hm hrest
    rw [List.length_cons, core_run_succ _ hstep]
    exact ⟨t, hrun, fun reg hreg => (hkept' reg hreg).trans (hkept reg hreg)⟩

/-- R32, R33: a block that has completed its command is idle. -/
theorem Inv.idle_of_done {s : State} (h : Inv s) (hdone : s.status.done = true) : s.phase = .idle := by
  cases hp : s.phase with
  | idle => rfl
  | busy => exact absurd ⟨h.busyIsPhase.mpr hp, hdone⟩ h.notBusyAndDone

/-- Settles O50: the block is idle, and stays so through events that start no command. -/
theorem resultsStayVisibleAfterDone : Obligations.ResultsStayVisibleAfterDone :=
  fun evs _ hinv hdone hs hevs => exists_run_of_noCommandEvents evs (hinv.idle_of_done hdone) hs hevs

/-! ### Every command completes -/

/-- R33: a command is in progress, or the last accepted one has completed. -/
def BusyOrDone (s : State) : Prop := s.phase = .busy ∨ s.status.done = true

/-- R33, R272: only a reset ends this. -/
theorem BusyOrDone.of_step {s t : State} (h : BusyOrDone s) (hstep : step s = .next t) (hr : ¬ Resetting s) :
    BusyOrDone t := by
  cases stepKind_of_step hstep with
  | inputs => exact h
  | accepted => exact .inl rfl
  | overran _ _ hp => exact .inl hp
  | completed => exact .inr rfl
  | wasReset _ hreset => exact absurd hreset hr

theorem not_resetting_of_not_mem {s : State} (h : .reset ∉ s.script) : ¬ Resetting s := by
  rintro ⟨rest, hs⟩
  exact h (hs ▸ List.mem_cons_self)

/-- R67, R284: with no event left, one step more ends idle, its command completed. -/
theorem exists_step_of_script_nil {s : State} (hs : s.script = []) :
    ∃ t, step s = .next t ∧ t.phase = .idle ∧ t.script = [] ∧ (BusyOrDone s → t.status.done = true) := by
  cases hp : s.phase with
  | idle =>
    have hstep : step s = .next s := by rw [step, stepScript, hs]; dsimp only; rw [sequencerTurn, hp]
    exact ⟨s, hstep, hp, hs, fun h => h.resolve_left fun hbusy => Phase.noConfusion (hp.symm.trans hbusy)⟩
  | busy => exact ⟨_, step_completing ⟨hp, .inl hs⟩, rfl, by rw [complete_script, hs]; rfl, fun _ => rfl⟩

/-- R67, R272, R284: a run through the events and one step more ends quiescent, and with DONE = 1 if a command was or had
been in progress and no reset came. -/
theorem exists_run_quiescent (evs : List Event) {s : State} (hs : s.script = evs)
    (hevs : ∀ ev ∈ evs, interfaceEvent ev = true) :
    ∃ t, core.run (evs.length + 1) s = .next t ∧ t.phase = .idle ∧ t.script = [] ∧
      (.reset ∉ evs → BusyOrDone s → t.status.done = true) := by
  induction evs generalizing s with
  | nil =>
    obtain ⟨t, hstep, hidle, hnil, hdone⟩ := exists_step_of_script_nil hs
    exact ⟨t, core_run_succ 0 hstep, hidle, hnil, fun _ => hdone⟩
  | cons ev rest ih =>
    obtain ⟨hev, hrest⟩ := List.forall_mem_cons.mp hevs
    obtain ⟨m, hstep, hm⟩ := exists_step_of_interfaceEvent hs hev
    obtain ⟨t, hrun, hidle, hnil, hdone⟩ := ih hm hrest
    rw [List.length_cons, core_run_succ _ hstep]
    refine ⟨t, hrun, hidle, hnil, fun hnot h => hdone (fun hmem => hnot (List.mem_cons_of_mem _ hmem)) ?_⟩
    exact h.of_step hstep (not_resetting_of_not_mem (hs ▸ hnot))

theorem LatchesKept.refl (s : State) : LatchesKept s s := ⟨rfl, rfl, rfl, rfl, rfl⟩

theorem LatchesKept.trans {s t u : State} (h₁ : LatchesKept s t) (h₂ : LatchesKept t u) : LatchesKept s u := by
  obtain ⟨hcmd₁, ha₁, hb₁, hscl₁, hshamt₁⟩ := h₁
  obtain ⟨hcmd₂, ha₂, hb₂, hscl₂, hshamt₂⟩ := h₂
  exact ⟨hcmd₂.trans hcmd₁, ha₂.trans ha₁, hb₂.trans hb₁, hscl₂.trans hscl₁, hshamt₂.trans hshamt₁⟩

/-- R67: what a completion applies is read off the latches. -/
theorem LatchesKept.latchedEffect_eq {s t : State} (h : LatchesKept s t) : latchedEffect t = latchedEffect s := by
  obtain ⟨hcmd, ha, hb, hscl, hshamt⟩ := h
  have heffect (i : Instr) : effectOf i t = effectOf i s := effectOf_congr_latches i ha hb hscl hshamt
  simp only [latchedEffect, hcmd, heffect]

/-- R38, R68, R75: while a command is in progress, a step that neither completes it nor resets keeps it in progress, with
its word and operands. -/
theorem busy_latches_of_step {s t : State} (hp : s.phase = .busy) (hstep : step s = .next t) (hc : ¬ Completing s)
    (hr : ¬ Resetting s) : t.phase = .busy ∧ LatchesKept s t := by
  cases stepKind_of_step hstep with
  | inputs | overran => exact ⟨hp, .refl s⟩
  | accepted _ _ hidle => cases hp.symm.trans hidle
  | completed _ hcompleting => exact absurd hcompleting hc
  | wasReset _ hreset => exact absurd hreset hr

/-- The command in progress in `s` stays in progress for `k` steps, with its word and operands latched. -/
def InProgressFor (k : Nat) (s : State) : Prop :=
  ∀ j ≤ k, ∃ w, core.run j s = .next w ∧ w.phase = .busy ∧ LatchesKept s w

theorem InProgressFor.zero {s : State} (hp : s.phase = .busy) : InProgressFor 0 s := by
  intro j hj
  obtain rfl := Nat.le_zero.mp hj
  exact ⟨s, rfl, hp, .refl s⟩

theorem InProgressFor.succ {s t : State} {k : Nat} (hp : s.phase = .busy) (hstep : step s = .next t)
    (hlatches : LatchesKept s t) (h : InProgressFor k t) : InProgressFor (k + 1) s := by
  intro j hj
  cases j with
  | zero => exact ⟨s, rfl, hp, .refl s⟩
  | succ j =>
    obtain ⟨w, hrun, hbusy, hkept⟩ := h j (Nat.le_of_succ_le_succ hj)
    exact ⟨w, (core_run_succ j hstep).trans hrun, hbusy, hlatches.trans hkept⟩

/-- R67, R284: a command that no reset abandons stays in progress until its completion is the next step. -/
theorem exists_run_completing (evs : List Event) {s : State} (hs : s.script = evs)
    (hevs : ∀ ev ∈ evs, interfaceEvent ev = true) (hnot : .reset ∉ evs) (hp : s.phase = .busy) :
    ∃ k ≤ evs.length, InProgressFor k s ∧ ∃ u, core.run k s = .next u ∧ Completing u ∧ LatchesKept s u := by
  induction evs generalizing s with
  | nil => exact ⟨0, le_rfl, .zero hp, s, rfl, ⟨hp, .inl hs⟩, .refl s⟩
  | cons ev rest ih =>
    by_cases hc : Completing s
    · exact ⟨0, Nat.zero_le _, .zero hp, s, rfl, hc, .refl s⟩
    · obtain ⟨hev, hrest⟩ := List.forall_mem_cons.mp hevs
      obtain ⟨t, hstep, ht⟩ := exists_step_of_interfaceEvent hs hev
      obtain ⟨hbusy, hlatches⟩ := busy_latches_of_step hp hstep hc (not_resetting_of_not_mem (hs ▸ hnot))
      obtain ⟨k, hk, hprogress, u, hrun, hcu, hkept⟩ := ih ht hrest (fun hmem => hnot (List.mem_cons_of_mem _ hmem)) hbusy
      exact ⟨k + 1, Nat.succ_le_succ hk, hprogress.succ hp hstep hlatches, u, (core_run_succ k hstep).trans hrun, hcu,
        hlatches.trans hkept⟩

/-- Settles O49: a run ends quiescent; and a command in progress keeps its latches up to its completion, which therefore
applies the effect that it was accepted with. -/
theorem everyCommandCompletes : Obligations.EveryCommandCompletes := by
  refine ⟨fun s hevs => ?_, fun s hevs hnot hp => ⟨?_, ?_⟩⟩
  · obtain ⟨t, hrun, hidle, hnil, -⟩ := exists_run_quiescent s.script rfl hevs
    exact ⟨t, hrun, hidle, hnil⟩
  · obtain ⟨k, hk, hprogress, u, hrun, hc, hkept⟩ := exists_run_completing s.script rfl hevs hnot hp
    refine ⟨k, u, _, hk, hprogress, hrun, hc, step_completing hc, ?_⟩
    rw [hkept.latchedEffect_eq]
    exact ⟨rfl, rfl, rfl, rfl, rfl, rfl, rfl, rfl, rfl⟩
  · obtain ⟨t, hrun, hidle, hnil, hdone⟩ := exists_run_quiescent s.script rfl hevs
    exact ⟨t, hrun, hidle, hnil, hdone hnot (.inl hp)⟩

end Sys2Proof.Machine
end

section
/-! PROOFS, 30_encoding.md R90 to R94: the decoder and the encoder are inverse to one another, and what the decoder accepts
is R93's legal words. -/

namespace Sys2Proof

/-- R90: a word is its three fields. -/
theorem append_fields (c : Word) : fieldRsv c ++ fieldBin c ++ fieldOp c = c := by
  have hhigh : fieldRsv c ++ fieldBin c = c.extractLsb' 8 56 := BitVec.extractLsb'_append_extractLsb'_eq_extractLsb' rfl
  rw [hhigh]
  exact (BitVec.extractLsb'_append_extractLsb'_eq_extractLsb' rfl).trans BitVec.extractLsb'_eq_self

/-- R90: OP, as a remainder. -/
theorem toNat_fieldOp (c : Word) : (fieldOp c).toNat = c.toNat % 2 ^ 8 := by
  simp [fieldOp, BitVec.extractLsb'_toNat]

/-- R90: BIN, as a quotient's remainder. -/
theorem toNat_fieldBin (c : Word) : (fieldBin c).toNat = c.toNat / 2 ^ 8 % 2 := by
  simp [fieldBin, BitVec.extractLsb'_toNat, Nat.shiftRight_eq_div_pow]

/-- R90: RSV, as a quotient. -/
theorem toNat_fieldRsv (c : Word) : (fieldRsv c).toNat = c.toNat / 2 ^ 9 := by
  have h : c.toNat / 2 ^ 9 < 2 ^ 55 := by omega
  simpa [fieldRsv, BitVec.extractLsb'_toNat, Nat.shiftRight_eq_div_pow] using h

/-- R94: a word decodes to a command when it passes R94's two tests and its OP and BIN select that command. -/
theorem decode_eq_ok_iff {c : Word} {i : Instr} :
    decode c = .ok i ↔
      fieldRsv c = 0 ∧ (fieldBin c = 0 ∨ fieldOp c = 0x07) ∧ decodeOp (fieldOp c).toNat (fieldBin c) = .ok i := by
  have hbin : ¬ (fieldBin c = 1 ∧ fieldOp c ≠ 0x07) ↔ fieldBin c = 0 ∨ fieldOp c = 0x07 := by
    obtain h | h := BitVec.eq_zero_or_eq_one (fieldBin c) <;> simp [h]
  unfold decode
  by_cases hrsv : fieldRsv c = 0
  · rw [if_neg (not_not_intro hrsv), ← hbin]
    split
    · next hguard => exact iff_of_false nofun fun ⟨_, hpass, _⟩ => hpass hguard
    · next hguard => exact ⟨fun h => ⟨hrsv, hguard, h⟩, fun ⟨_, _, h⟩ => h⟩
  · rw [if_pos hrsv]
    exact iff_of_false nofun fun ⟨h, _⟩ => hrsv h

/-- R92, R94: the command that OP and BIN select has that OP, and that BIN if it is SUBB. -/
theorem fields_of_decodeOp {op : Nat} {bin : BitVec 1} {i : Instr} (h : decodeOp op bin = .ok i) :
    (opOf i).toNat = op ∧ binOf i = if op = 0x07 then bin else 0 := by
  unfold decodeOp at h
  split at h <;> cases h <;> exact ⟨rfl, rfl⟩

/-- R92, R94: the OP values that select a command are 0x01 to 0x07. -/
theorem exists_decodeOp_eq_ok_iff {op : Nat} {bin : BitVec 1} : (∃ i, decodeOp op bin = .ok i) ↔ 1 ≤ op ∧ op ≤ 7 := by
  match op with
  | 0 | n + 8 => exact iff_of_false nofun (by omega)
  | 1 | 2 | 3 | 4 | 5 | 6 | 7 => exact iff_of_true ⟨_, rfl⟩ (by decide)

/-- R90, R94: a word that decodes has the three fields of its command. -/
theorem fields_of_decode {c : Word} {i : Instr} (h : decode c = .ok i) :
    fieldRsv c = 0 ∧ fieldBin c = binOf i ∧ fieldOp c = opOf i := by
  obtain ⟨hrsv, hbin, hop⟩ := decode_eq_ok_iff.mp h
  obtain ⟨hopOf, hbinOf⟩ := fields_of_decodeOp hop
  refine ⟨hrsv, ?_, (BitVec.eq_of_toNat_eq hopOf).symm⟩
  rw [hbinOf]
  split
  · rfl
  · next hne => exact hbin.resolve_right fun h7 => hne (by rw [h7]; rfl)

/-- R90, R94: a word that decodes is the word of its command. -/
theorem encode_of_decode {c : Word} {i : Instr} (h : decode c = .ok i) : encode i = c := by
  obtain ⟨hrsv, hbin, hop⟩ := fields_of_decode h
  calc encode i = fieldRsv c ++ fieldBin c ++ fieldOp c := by rw [hrsv, hbin, hop, encode]
    _ = c := append_fields c

/-- Settles O1: a command's own word decodes to it, and the fields that the decoder reads are the whole word. -/
theorem decodeInvertsEncode : Obligations.DecodeInvertsEncode :=
  ⟨Machine.decode_encode, fun _ _ => encode_of_decode⟩

/-- Settles O2: R94's tests and table, field by field, are R93's three conditions. -/
theorem decodeAcceptsExactlyLegalWords : Obligations.DecodeAcceptsExactlyLegalWords := by
  intro c
  have hrsv : fieldRsv c = 0 ↔ c.toNat / 2 ^ 9 = 0 := by
    rw [← toNat_fieldRsv, ← BitVec.toNat_inj]; rfl
  have hbin : fieldBin c = 0 ↔ c.toNat / 2 ^ 8 % 2 = 0 := by
    rw [← toNat_fieldBin, ← BitVec.toNat_inj]; rfl
  have hop : fieldOp c = 0x07 ↔ c.toNat % 2 ^ 8 = 7 := by
    rw [← toNat_fieldOp, ← BitVec.toNat_inj]; rfl
  calc (∃ i, decode c = .ok i)
      ↔ fieldRsv c = 0 ∧ (fieldBin c = 0 ∨ fieldOp c = 0x07) ∧
          ∃ i, decodeOp (fieldOp c).toNat (fieldBin c) = .ok i := by
        simp only [decode_eq_ok_iff, exists_and_left]
    _ ↔ _ := by
        rw [exists_decodeOp_eq_ok_iff, toNat_fieldOp, hrsv, hbin, hop]
        tauto

end Sys2Proof
end

section
/-! PROOFS, 30_encoding.md R97, R98: a list of host statements with nothing between them runs as the fold of what each
statement does, and so `ld` and `mov` put their words in the destination one by one. -/

namespace Sys2Proof.Machine

/-! ### Straight-line host programs -/

/-- R97: what one statement's host action does to the block. -/
def stmtEffect (s : State) : Stmt → State
  | .wr reg imm => writeReg s reg imm
  | .rd reg => hostRead s (regOff reg)
  | .op i => writeReg s .cmd (encode i)
  | .raw imm => writeReg s .cmd imm

/-- A host write does not look at the events to come. -/
theorem writeReg_withScript (s : State) (evs : List Event) (reg : Reg) (v : Word) :
    writeReg (withScript s evs) reg v = withScript (writeReg s reg v) evs := by
  cases reg with
  | word x i => cases x <;> rfl
  | cmd => simp only [writeReg, writeCmd, withScript_phase]; cases s.phase <;> rfl
  | _ => rfl

/-- A host read of a register does not look at the events to come. -/
theorem hostRead_regOff_withScript (s : State) (evs : List Event) (reg : Reg) :
    hostRead (withScript s evs) (regOff reg) = withScript (hostRead s (regOff reg)) evs := by
  simp only [hostRead, windowWord_regOff, readReg_withScript]
  rfl

/-- R70, R97: the step of a statement's host action. -/
theorem step_stmt (s : State) (st : Stmt) (rest : List Event) :
    step (withScript s (.host (stmtAccess st) :: rest)) = .next (withScript (stmtEffect s st) rest) := by
  have hwrite (reg : Reg) (v : Word) : step (withScript s (.host (.write (regOff reg) 8 v) :: rest)) =
      .next (withScript (writeReg s reg v) rest) :=
    (step_host_write rfl).trans (congrArg _ (writeReg_withScript s rest reg v))
  cases st with
  | wr reg imm => exact hwrite reg imm
  | rd reg =>
    exact (step_host_read (inInterface_regOff reg) rfl).trans (congrArg _ (hostRead_regOff_withScript s rest reg))
  | op i => exact hwrite .cmd (encode i)
  | raw imm => exact hwrite .cmd imm

/-- R70, R97: a list of statements with nothing between them does what its statements do, in order. -/
theorem run_stmts {p : List Stmt} {n : Nat} {s t : State} (hlen : p.length = n) (hfold : p.foldl stmtEffect s = t) :
    core.run n (withScript s (stmtEvents p)) = .next (withScript t []) := by
  subst hlen hfold
  induction p generalizing s with
  | nil => rfl
  | cons st p ih => exact (core_run_succ p.length (step_stmt s st (stmtEvents p))).trans ih

/-! ### Filling a wide register word by word -/

/-- The state with one 512-bit register replaced. -/
def withWide (s : State) (x : Wide) (v : Val512) : State :=
  match x with
  | .opa => { s with opa := v }
  | .opb => { s with opb := v }
  | .q => { s with q := v }
  | .r => { s with r := v }

theorem wideReg_withWide (s : State) (x : Wide) (v : Val512) (y : Wide) :
    wideReg (withWide s x v) y = if y = x then v else wideReg s y := by
  cases x <;> cases y <;> rfl

theorem withWide_wideReg (s : State) (x : Wide) : withWide s x (wideReg s x) = s := by
  cases x <;> rfl

theorem withWide_withWide (s : State) (x : Wide) (v w : Val512) : withWide (withWide s x v) x w = withWide s x w := by
  cases x <;> rfl

/-- R21, R22: a write to a word of OPA or OPB replaces that word. -/
theorem writeReg_word {x : Wide} (hx : x = .opa ∨ x = .opb) (s : State) (i : Fin 8) (v : Word) :
    writeReg s (.word x i) v = withWide s x (setWord (wideReg s x) i v) := by
  obtain rfl | rfl := hx <;> rfl

/-- `v` with the words of `imm` that `l` lists put in, in the order of `l`. -/
def fillWords (imm : Val512) (l : List (Fin 8)) (v : Val512) : Val512 :=
  l.foldl (fun v (i : Fin 8) => setWord v i (wordOf imm i)) v

theorem fillWords_cons (imm : Val512) (i : Fin 8) (l : List (Fin 8)) (v : Val512) :
    fillWords imm (i :: l) v = fillWords imm l (setWord v i (wordOf imm i)) := rfl

theorem wordOf_fillWords (imm : Val512) (l : List (Fin 8)) (v : Val512) (j : Fin 8) :
    wordOf (fillWords imm l v) j = if j ∈ l then wordOf imm j else wordOf v j := by
  induction l generalizing v with
  | nil => rfl
  | cons i l ih =>
    rw [fillWords_cons, ih, wordOf_setWord v i i.isLt]
    by_cases hji : j = i
    · subst hji; simp
    · have hne : j.val ≠ i.val := fun h => hji (Fin.ext h)
      simp [hji, hne]

theorem fillWords_eq_of_mem {imm : Val512} {l : List (Fin 8)} (hl : ∀ j, j ∈ l) (v : Val512) : fillWords imm l v = imm :=
  val_ext fun j hj => (wordOf_fillWords imm l v ⟨j, hj⟩).trans (if_pos (hl _))

/-- R8: putting a value's own word back changes nothing. -/
theorem setWord_wordOf_self (v : Val512) (i : Fin 8) : setWord v i (wordOf v i) = v := by
  refine val_ext fun j _ => ?_
  rw [wordOf_setWord v i i.isLt]
  split
  · next h => rw [h]
  · rfl

theorem mem_wordIndices : ∀ j, j ∈ wordIndices := by decide

/-! ### `ld` and `mov` -/

/-- R98: the writes of `ld`, for any list of words, put those words in the destination. -/
theorem foldl_ld {x : Wide} (hx : x = .opa ∨ x = .opb) (imm : Val512) (l : List (Fin 8)) (s : State) :
    (l.map fun i => Stmt.wr (.word x i) (wordOf imm i)).foldl stmtEffect s =
      withWide s x (fillWords imm l (wideReg s x)) := by
  induction l generalizing s with
  | nil => exact (withWide_wideReg s x).symm
  | cons i l ih =>
    rw [List.map_cons, List.foldl_cons, ih, stmtEffect, writeReg_word hx, withWide_withWide, wideReg_withWide, if_pos rfl,
      fillWords_cons]

/-- R98: `ld` in any order of its writes. -/
theorem run_perm_ld {x : Wide} (hx : x = .opa ∨ x = .opb) (s : State) (imm : Val512) {p : List Stmt}
    (hp : p.Perm (ldStmts x imm)) :
    core.run 8 (withScript s (stmtEvents p)) = .next (withScript (withWide s x imm) []) := by
  obtain ⟨l, rfl, hl⟩ : Relation.Comp (· = List.map (fun i : Fin 8 => Stmt.wr (.word x i) (wordOf imm i)) ·)
      List.Perm p wordIndices := (congrFun₂ (List.eq_map_comp_perm _) p wordIndices).mpr hp
  refine run_stmts hp.length_eq ?_
  rw [foldl_ld hx, fillWords_eq_of_mem fun j => hl.mem_iff.mpr (mem_wordIndices j)]

/-- Settles O57: the writes of a permutation of `ld` are to all eight words, each of which is written with its own
word of `imm`. -/
theorem ldLoadsInAnyOrder : Obligations.LdLoadsInAnyOrder :=
  fun s imm _ => ⟨run_perm_ld (.inl rfl) s imm, run_perm_ld (.inr rfl) s imm⟩

/-- What the host gets from reading word `i` of `src` when it holds `v`. -/
def wordRecord (src : Wide) (v : Val512) (i : Fin 8) : ReadRecord := ⟨regOff (.word src i), wordOf v i⟩

/-- The state with one 512-bit register replaced and more reads on record. -/
def withCopy (s : State) (dst : Wide) (v : Val512) (rds : List ReadRecord) : State :=
  { withWide s dst v with reads := rds ++ s.reads }

theorem withCopy_wideReg_nil (s : State) (dst : Wide) : withCopy s dst (wideReg s dst) [] = s := by
  cases dst <;> rfl

theorem wideReg_withCopy (s : State) (dst : Wide) (v : Val512) (rds : List ReadRecord) (y : Wide) :
    wideReg (withCopy s dst v rds) y = if y = dst then v else wideReg s y := by
  cases dst <;> cases y <;> rfl

theorem withCopy_withCopy (s : State) (dst : Wide) (v w : Val512) (rds rds' : List ReadRecord) :
    withCopy (withCopy s dst v rds) dst w rds' = withCopy s dst w (rds' ++ rds) := by
  cases dst <;> simp [withCopy, withWide]

/-- R98: one read and one write of `mov` copy one word and put it on record. -/
theorem stmtEffect_mov {dst : Wide} (hdst : dst = .opa ∨ dst = .opb) {src : Wide} {s : State} {v : Val512}
    (hv : wideReg s src = v) (i : Fin 8) :
    stmtEffect (stmtEffect s (.rd (.word src i))) (.wr (.word dst i) (wordOf v i)) =
      withCopy s dst (setWord (wideReg s dst) i (wordOf v i)) [wordRecord src v i] := by
  rw [stmtEffect, stmtEffect, writeReg_word hdst, hostRead, windowWord_regOff, readReg, hv]
  cases dst <;> rfl

/-- A copied word leaves the source as it was, also where the source is the destination. -/
theorem wideReg_withCopy_word {dst src : Wide} {s : State} {v : Val512} (hv : wideReg s src = v) (i : Fin 8)
    (rds : List ReadRecord) : wideReg (withCopy s dst (setWord (wideReg s dst) i (wordOf v i)) rds) src = v := by
  rw [wideReg_withCopy]
  split
  · next h => rw [← h, hv, setWord_wordOf_self]
  · exact hv

/-- R98: the reads and writes of `mov`, for any list of words, copy those words and return them to the host. -/
theorem foldl_mov {dst : Wide} (hdst : dst = .opa ∨ dst = .opb) {src : Wide} {s : State} {v : Val512}
    (hv : wideReg s src = v) (l : List (Fin 8)) :
    (l.flatMap fun i => [Stmt.rd (.word src i), .wr (.word dst i) (wordOf v i)]).foldl stmtEffect s =
      withCopy s dst (fillWords v l (wideReg s dst)) (l.map (wordRecord src v)).reverse := by
  induction l generalizing s with
  | nil => exact (withCopy_wideReg_nil s dst).symm
  | cons i l ih =>
    rw [List.flatMap_cons, List.foldl_append, List.foldl_cons, List.foldl_cons, List.foldl_nil, stmtEffect_mov hdst hv,
      ih (wideReg_withCopy_word hv i _), withCopy_withCopy, wideReg_withCopy, if_pos rfl, fillWords_cons, List.map_cons,
      List.reverse_cons]

/-- R98: `mov` copies the source and changes nothing else but the record of reads. -/
theorem run_mov {dst : Wide} (hdst : dst = .opa ∨ dst = .opb) (s : State) (src : Wide) :
    core.run 16 (withScript s (stmtEvents (movStmts dst src (wideReg s src)))) =
      .next (withScript
        (withCopy s dst (wideReg s src) (wordIndices.map (wordRecord src (wideReg s src))).reverse) []) := by
  refine run_stmts rfl ?_
  rw [movStmts, foldl_mov hdst rfl, fillWords_eq_of_mem mem_wordIndices]

/-- Settles O58: each word is read before it is written, and a copied word leaves the source as it was. -/
theorem movCopiesARegister : Obligations.MovCopiesARegister :=
  fun s src => ⟨⟨_, run_mov (.inl rfl) s src, rfl, rfl, rfl, rfl, rfl⟩,
    ⟨_, run_mov (.inr rfl) s src, rfl, rfl, rfl, rfl, rfl⟩⟩

end Sys2Proof.Machine
end

section
/-! PROOFS, 40_primitives.md R120: what a completion without error leaves, by flags, by registers and by bytes of the
window. -/

namespace Sys2Proof.Machine

/-- R120: a command that reports code 0 leaves RC, DZ and ILL 0, and OVR as it was. -/
theorem completedWith_of_success {e : Effect} (h : e.code = .success) (s : State) :
    CompletedWith 0 false false s (complete s e) := by
  simp [CompletedWith, h]

/-- R67: outside RC and STATUS, a completion moves only the registers in which it puts a value of the effect. -/
theorem readReg_complete_of_not_writes {e : Effect} {reg : Reg} (h : ¬ e.Writes reg) (hrc : reg ≠ .rc)
    (hstatus : reg ≠ .status) (s : State) : readReg (complete s e) reg = readReg s reg := by
  have hkept {α : Type} {o : Option α} (ho : ¬ o.isSome) (a : α) : o.getD a = a := by
    rw [Option.not_isSome_iff_eq_none.mp ho, Option.getD_none]
  match reg, h with
  | .word .opa _, _ | .word .opb _, _ | .scl, _ | .shamt, _ | .cmd, _ => rfl
  | .word .q j, h => exact congrArg (wordOf · j) (hkept h s.q)
  | .word .r j, h => exact congrArg (wordOf · j) (hkept h s.r)
  | .rs, h => exact hkept h s.rs
  | .cmpr, h => exact hkept h s.cmpr
  | .rc, _ => exact absurd rfl hrc
  | .status, _ => exact absurd rfl hstatus

/-- R92: a command's effect has no value for a register outside its "writes" column. -/
theorem mem_writtenRegs_of_writes {i : Instr} {s : State} {reg : Reg} (h : (effectOf i s).Writes reg) :
    reg ∈ writtenRegs i := by
  match reg, h with
  | .word .q j, h =>
    obtain rfl | rfl | rfl | rfl | ⟨bin, rfl⟩ := instr_of_effectOf_q h <;> simp [writtenRegs, mem_wideRegs]
  | .word .r j, h =>
    obtain rfl := instr_of_effectOf_r h
    simp [writtenRegs, mem_wideRegs]
  | .rs, h =>
    obtain rfl := instr_of_effectOf_rs h
    exact List.mem_cons_self
  | .cmpr, h => obtain rfl | rfl := instr_of_effectOf_cmpr h <;> exact List.mem_singleton_self _

/-- R92: every command keeps the registers outside its "writes" column, RC and STATUS apart. -/
theorem othersKept_exec {i : Instr} {s t : State} (h : exec i s = .next t) : OthersKept (writtenRegs i) s t := by
  intro reg hreg hrc hstatus
  rw [exec_eq_complete] at h
  cases h
  exact readReg_complete_of_not_writes (fun hw => hreg (mem_writtenRegs_of_writes hw)) hrc hstatus s

/-! ### Bytes of the window -/

/-- The bytes of a register of the window (R20). -/
def Reg.HasByte (reg : Reg) (a : Nat) : Prop := regOff reg ≤ a ∧ a < regOff reg + 8

/-- R61: the bytes of the eight words of a 512-bit register. -/
theorem hasByte_of_mem_wideRegs {x : Wide} {reg : Reg} {a : Nat} (hreg : reg ∈ wideRegs x) (h : reg.HasByte a) :
    wideOff x ≤ a ∧ a < wideOff x + 64 := by
  obtain ⟨j, rfl⟩ := mem_wideRegs.mp hreg
  simp only [Reg.HasByte, regOff] at h
  omega

/-- R60: no register stands beyond the window. -/
theorem lt_of_regAt {off : Nat} {reg : Reg} (h : regAt off = some reg) : off < 0x200 := by
  by_contra hge
  obtain ⟨n, hn⟩ : ∃ n, off / 64 = n + 8 := ⟨off / 64 - 8, by omega⟩
  rw [regAt, hn] at h
  cases h

/-- R62, R64: a byte of the window is a byte of a register, or reserved and 0. -/
theorem windowByte_congr {s t : State} {a : Nat} (h : ∀ reg : Reg, reg.HasByte a → readReg t reg = readReg s reg) :
    windowByte t a = windowByte s a := by
  rw [windowByte, windowByte, windowWord, windowWord]
  cases hreg : regAt (a / 8 * 8) with
  | none => rfl
  | some reg =>
    have hoff := regOff_of_regAt (Nat.mul_mod_left _ _) (lt_of_regAt hreg) hreg
    have hbyte : reg.HasByte a := by
      unfold Reg.HasByte
      omega
    exact congrArg (BitVec.extractLsb' _ 8) (h reg hbyte)

/-- R92, R120: a command keeps every byte outside STATUS, RC and the registers of its "writes" column. -/
theorem windowByte_of_exec {i : Instr} {s t : State} (h : exec i s = .next t) {a : Nat}
    (hcodes : ¬ (0x098 ≤ a ∧ a < 0x0A8)) (hwritten : ∀ reg ∈ writtenRegs i, ¬ reg.HasByte a) :
    windowByte t a = windowByte s a := by
  refine windowByte_congr fun reg hbyte => othersKept_exec h reg (fun hreg => hwritten reg hreg hbyte) ?_ ?_
  all_goals
    rintro rfl
    simp only [Reg.HasByte, regOff] at hbyte
    omega

/-- R25: a command whose only result is Q keeps every byte outside STATUS, RC and Q. -/
theorem windowByte_of_exec_writing_q {i : Instr} {s t : State} (hi : writtenRegs i = wideRegs .q)
    (h : exec i s = .next t) (a : Nat) (hcodes : ¬ (0x098 ≤ a ∧ a < 0x0A8)) (hq : ¬ (0x0C0 ≤ a ∧ a < 0x100)) :
    windowByte t a = windowByte s a :=
  windowByte_of_exec h hcodes fun _ hreg hbyte => hq (hasByte_of_mem_wideRegs (x := .q) (hi ▸ hreg) hbyte)

/-- R28: a command whose only result is CMPR keeps every byte outside STATUS, RC and CMPR. -/
theorem windowByte_of_exec_writing_cmpr {i : Instr} {s t : State} (hi : writtenRegs i = [.cmpr])
    (h : exec i s = .next t) (a : Nat) (ha : ¬ (0x098 ≤ a ∧ a < 0x0B0)) : windowByte t a = windowByte s a := by
  refine windowByte_of_exec h (by omega) fun reg hreg hbyte => ?_
  obtain rfl := List.mem_singleton.mp (hi ▸ hreg)
  simp only [Reg.HasByte, regOff] at hbyte
  omega

/-- Settles O53: SHL and SHR write Q alone, and have no BORROW of their own. -/
theorem shiftFrame : Obligations.ShiftFrame := by
  intro i s t hi h
  refine ⟨windowByte_of_exec_writing_q (by obtain rfl | rfl := hi <;> rfl) h, ?_⟩
  rw [exec_eq_complete] at h
  cases h
  obtain rfl | rfl := hi <;> exact ⟨rfl, rfl, rfl, rfl⟩

/-- Settles O54: CMPS and CMP write CMPR alone, and have no BORROW of their own. -/
theorem compareFrame : Obligations.CompareFrame := by
  intro i s t hi h
  refine ⟨windowByte_of_exec_writing_cmpr (by obtain rfl | rfl := hi <;> rfl) h, ?_⟩
  rw [exec_eq_complete] at h
  cases h
  obtain rfl | rfl := hi <;> exact ⟨rfl, rfl, rfl, rfl⟩

/-- Settles O55: SUBB writes Q alone, and reports code 0. -/
theorem subbFrame : Obligations.SubbFrame := by
  intro bin s t h
  refine ⟨windowByte_of_exec_writing_q rfl h, ?_⟩
  cases h
  exact ⟨rfl, rfl, rfl, rfl, rfl⟩

end Sys2Proof.Machine
end

section
/-! PROOFS, 40_primitives.md R121 to R123: the values and the words of SHL and SHR, and their laws. -/

namespace Sys2Proof.Machine

set_option exponentiation.threshold 600

/-- R121: SHL multiplies by `2^n`. -/
theorem toNat_shlValue (a : Val512) (n : Nat) :
    (shlValue a n).toNat = if n ≥ 512 then 0 else a.toNat * 2 ^ n % 2 ^ 512 := by
  unfold shlValue
  split
  · rfl
  · rw [BitVec.toNat_ofNat, Nat.shiftLeft_eq]

/-- R122: SHR divides by `2^n`. -/
theorem toNat_shrValue (a : Val512) (n : Nat) :
    (shrValue a n).toNat = if n ≥ 512 then 0 else a.toNat / 2 ^ n := by
  unfold shrValue
  split
  · rfl
  · rw [Nat.shiftRight_eq_div_pow]
    exact toNat_ofNat_of_lt (lt_of_le_of_lt (Nat.div_le_self _ _) a.isLt)

/-- R121: the bits of SHL's value. -/
theorem getLsbD_shlValue (a : Val512) {n : Nat} (hn : n < 512) {j : Nat} (hj : j < 512) :
    (shlValue a n).getLsbD j = (decide (n ≤ j) && a.getLsbD (j - n)) := by
  rw [shlValue, if_neg (by omega), BitVec.getLsbD_ofNat, decide_eq_true hj, Bool.true_and, Nat.testBit_shiftLeft]
  rfl

/-- R122: the bits of SHR's value. -/
theorem getLsbD_shrValue (a : Val512) {n : Nat} (hn : n < 512) {j : Nat} (hj : j < 512) :
    (shrValue a n).getLsbD j = a.getLsbD (n + j) := by
  rw [shrValue, if_neg (by omega), BitVec.getLsbD_ofNat, decide_eq_true hj, Bool.true_and, Nat.testBit_shiftRight]
  rfl

/-- R121, R122: bit `l` of word `k` is bit `64·k + l` of the value, 0 below bit 0 and above bit 511. -/
theorem getLsbD_wordOrZero (a : Val512) {k p : Int} {l : Nat} (hl : l < 64) (hp : 64 * k + l = p) :
    (wordOrZero a k).getLsbD l = (decide (0 ≤ p) && a.getLsbD p.toNat) := by
  unfold wordOrZero
  split
  · have hindex : 64 * k.toNat + l = p.toNat := by omega
    rw [getLsbD_wordOf, decide_eq_true hl, hindex, decide_eq_true (show 0 ≤ p by omega)]
  · rw [show (0 : Word).getLsbD l = false from BitVec.getLsbD_zero]
    by_cases h0 : 0 ≤ p
    · rw [BitVec.getLsbD_of_ge a p.toNat (by omega), Bool.and_false]
    · rw [decide_eq_false h0, Bool.false_and]

/-- R121: a word shifted up, filled from below with the top bits of the word under it. -/
theorem getLsbD_shiftLeft_fill (upper lower : Word) {t j : Nat} (ht : t < 64) (hj : j < 64) :
    (upper <<< t ||| (if t = 0 then 0 else lower >>> (64 - t))).getLsbD j =
      if j < t then lower.getLsbD (64 - t + j) else upper.getLsbD (j - t) := by
  rw [BitVec.getLsbD_or, BitVec.getLsbD_shiftLeft]
  by_cases hjt : j < t
  · have ht0 : t ≠ 0 := by omega
    simp [hjt, ht0]
  · have hlow : (if t = 0 then 0 else lower >>> (64 - t)).getLsbD j = false := by
      split
      · exact BitVec.getLsbD_zero
      · rw [BitVec.getLsbD_ushiftRight]
        exact BitVec.getLsbD_of_ge _ _ (by omega)
    rw [hlow, Bool.or_false, if_neg hjt, decide_eq_true hj, decide_eq_false hjt]
    rfl

/-- R122: a word shifted down, filled from above with the low bits of the word over it. -/
theorem getLsbD_shiftRight_fill (lower upper : Word) {t j : Nat} (ht : t < 64) (hj : j < 64) :
    (lower >>> t ||| (if t = 0 then 0 else upper <<< (64 - t))).getLsbD j =
      if t + j < 64 then lower.getLsbD (t + j) else upper.getLsbD (t + j - 64) := by
  rw [BitVec.getLsbD_or, BitVec.getLsbD_ushiftRight]
  by_cases htj : t + j < 64
  · have hhigh : (if t = 0 then 0 else upper <<< (64 - t)).getLsbD j = false := by
      split
      · exact BitVec.getLsbD_zero
      · rw [BitVec.getLsbD_shiftLeft, decide_eq_true (show j < 64 - t by omega), Bool.not_true, Bool.and_false,
          Bool.false_and]
    rw [hhigh, Bool.or_false, if_pos htj]
  · have hlow : lower.getLsbD (t + j) = false := BitVec.getLsbD_of_ge _ _ (by omega)
    have ht0 : t ≠ 0 := by omega
    have hjt : ¬ j < 64 - t := by omega
    rw [hlow, Bool.false_or, if_neg htj, if_neg ht0, BitVec.getLsbD_shiftLeft, decide_eq_true hj, decide_eq_false hjt,
      show j - (64 - t) = t + j - 64 by omega]
    rfl

/-- R121, word-level form: with `n = 64·s + t`, word `i` is word `i - s` shifted up by `t`, filled from word
`i - s - 1`. -/
theorem wordOf_shlValue (a : Val512) {n : Nat} (hn : n < 512) {i : Nat} (hi : i < 8) :
    wordOf (shlValue a n) i = shlWord a n i := by
  apply BitVec.eq_of_getLsbD_eq
  intro j hj
  have hbit : (wordOf (shlValue a n) i).getLsbD j =
      (decide (0 ≤ (64 * i + j - n : Int)) && a.getLsbD (64 * i + j - n : Int).toNat) := by
    rw [getLsbD_wordOf, getLsbD_shlValue a hn (by omega), decide_eq_true hj, Bool.true_and,
      show (64 * i + j - n : Int).toNat = 64 * i + j - n by omega]
    exact congrArg (· && _) (decide_eq_decide.mpr (by omega))
  rw [hbit, shlWord, getLsbD_shiftLeft_fill _ _ (by omega) hj]
  split
  · exact (getLsbD_wordOrZero a (by omega) (by omega)).symm
  · exact (getLsbD_wordOrZero a (by omega) (by omega)).symm

/-- R122, word-level form: with `n = 64·s + t`, word `i` is word `i + s` shifted down by `t`, filled from word
`i + s + 1`. -/
theorem wordOf_shrValue (a : Val512) {n : Nat} (hn : n < 512) {i : Nat} (hi : i < 8) :
    wordOf (shrValue a n) i = shrWord a n i := by
  apply BitVec.eq_of_getLsbD_eq
  intro j hj
  have hbit : (wordOf (shrValue a n) i).getLsbD j =
      (decide (0 ≤ (64 * i + j + n : Int)) && a.getLsbD (64 * i + j + n : Int).toNat) := by
    rw [getLsbD_wordOf, getLsbD_shrValue a hn (by omega), decide_eq_true hj,
      decide_eq_true (show 0 ≤ (64 * i + j + n : Int) by omega),
      show (64 * i + j + n : Int).toNat = n + (64 * i + j) by omega]
  rw [hbit, shrWord, getLsbD_shiftRight_fill _ _ (by omega) hj]
  split
  · exact (getLsbD_wordOrZero a (by omega) (by omega)).symm
  · exact (getLsbD_wordOrZero a (by omega) (by omega)).symm

/-- Settles O6: Q takes the shifted value, and every word of it has the word-level form. -/
theorem shlShiftsLeft : Obligations.ShlShiftsLeft :=
  ⟨rfl, fun s => ⟨_, exec_eq_complete .shl s, toNat_shlValue _ _, fun hn _ hi => wordOf_shlValue s.la hn hi,
    completedWith_of_success rfl s, rfl, othersKept_exec (exec_eq_complete .shl s)⟩⟩

/-- Settles O7: Q takes the shifted value, and every word of it has the word-level form. -/
theorem shrShiftsRight : Obligations.ShrShiftsRight :=
  ⟨rfl, fun s => ⟨_, exec_eq_complete .shr s, toNat_shrValue _ _, fun hn _ hi => wordOf_shrValue s.la hn hi,
    completedWith_of_success rfl s, rfl, othersKept_exec (exec_eq_complete .shr s)⟩⟩

/-- R191: the quotient that DIV by a non-zero divisor writes. -/
theorem toNat_q_complete_div {s : State} (hb : s.lb ≠ 0) :
    (complete s (effectOf .div s)).q.toNat = s.la.toNat / s.lb.toNat := by
  rw [effectOf, divEffect, if_neg hb]
  exact (longDivide_spec s.la s.lb hb).1

/-- R175: the quotient that DIVS by a non-zero divisor writes. -/
theorem toNat_q_complete_divs {s : State} (hd : s.lscl ≠ 0) :
    (complete s (effectOf .divs s)).q.toNat = s.la.toNat / s.lscl.toNat := by
  rw [effectOf, divsEffect, if_neg hd]
  exact (divsCore_spec s.la s.lscl hd).1

/-- `2^k` as a divisor of `n` bits. -/
theorem toNat_ofNat_two_pow {n k : Nat} (hk : k < n) : (BitVec.ofNat n (2 ^ k)).toNat = 2 ^ k :=
  toNat_ofNat_of_lt (Nat.pow_lt_pow_right (by decide) hk)

theorem ofNat_two_pow_ne_zero {n k : Nat} (hk : k < n) : BitVec.ofNat n (2 ^ k) ≠ 0 := by
  intro h
  have h0 := congrArg BitVec.toNat h
  rw [toNat_ofNat_two_pow hk] at h0
  exact absurd h0 (Nat.two_pow_pos k).ne'

/-- R123: what SHL pushes out at bit 512 is all but the low `k` bits. -/
theorem mul_mod_div_two_pow (x : Nat) {k m : Nat} (h : k + m = 512) : x * 2 ^ m % 2 ^ 512 / 2 ^ m = x % 2 ^ k := by
  rw [two_pow_split h.symm, Nat.mul_mod_mul_right, Nat.mul_div_cancel _ (Nat.two_pow_pos m)]

/-- R123: SHR after SHL by the same amount keeps the bits that SHL did not push out. -/
theorem toNat_shrValue_shlValue (a : Val512) {k m : Nat} (h : k + m = 512) :
    (shrValue (shlValue a m) m).toNat = a.toNat % 2 ^ k := by
  rw [toNat_shrValue, toNat_shlValue]
  split
  · obtain rfl : k = 0 := by omega
    rw [Nat.pow_zero, Nat.mod_one]
  · exact mul_mod_div_two_pow a.toNat h

/-- Settles O8: SHR and both divisions give the floor quotient by `2^k`, and SHL then SHR cuts the high bits off. -/
theorem shiftLawsHold : Obligations.ShiftLawsHold := by
  have hshr {s : State} {k : Nat} (hk : k ≤ 511) (hn : s.lshamt.toNat = k) :
      (complete s (effectOf .shr s)).q.toNat = s.la.toNat / 2 ^ k := by
    subst hn
    exact (toNat_shrValue s.la _).trans (if_neg (by omega))
  refine ⟨fun s k hk hn => ⟨_, _, exec_eq_complete .shr s, hshr hk hn, exec_eq_complete .div _, ?_⟩,
    fun s k hk hn => ⟨_, _, exec_eq_complete .shr s, exec_eq_complete .divs _, ?_⟩,
    fun s k hk hn => ⟨_, _, exec_eq_complete .shl s, exec_eq_complete .shr _, ?_⟩⟩
  · apply BitVec.eq_of_toNat_eq
    rw [hshr hk hn, toNat_q_complete_div (ofNat_two_pow_ne_zero (by omega)), toNat_ofNat_two_pow (by omega)]
  · apply BitVec.eq_of_toNat_eq
    rw [hshr (by omega) hn, toNat_q_complete_divs (ofNat_two_pow_ne_zero (by omega)), toNat_ofNat_two_pow (by omega)]
  · have hsum : k + s.lshamt.toNat = 512 := by omega
    exact toNat_shrValue_shlValue s.la hsum

end Sys2Proof.Machine
end

section
/-! PROOFS, 40_primitives.md R124 and R125: what the compares leave in CMPR, and the word scan of CMP. -/

namespace Sys2Proof.Machine

/-- R28, R124, R125: CMPR of each outcome of a compare. -/
theorem cmprWord_threeWay_cases (a b : Nat) :
    (a < b → cmprWord (threeWay a b) = 0xFFFFFFFFFFFFFFFF) ∧ (a = b → cmprWord (threeWay a b) = 0) ∧
      (b < a → cmprWord (threeWay a b) = 1) := by
  refine ⟨fun h => ?_, fun h => ?_, fun h => ?_⟩
  · rw [threeWay, if_pos h]
    decide
  · rw [threeWay, if_neg h.not_lt, if_pos h]
    decide
  · rw [threeWay, if_neg h.not_gt, if_neg h.ne']
    decide

/-- R8: a word that is not 0 puts the value at or above its place. -/
theorem le_of_wordOf_ne_zero {x : Val512} {i : Nat} (h : wordOf x i ≠ 0) : 2 ^ (64 * i) ≤ x.toNat := by
  by_contra hlt
  refine h (BitVec.eq_of_toNat_eq ?_)
  rw [toNat_wordOf, Nat.div_eq_of_lt (by omega)]
  rfl

/-- R124: a value with a word above word 0 that is not 0 is above every scalar. -/
theorem scalar_lt_of_wordOf_ne_zero {x : Val512} {i : Nat} (hi : 1 ≤ i) (h : wordOf x i ≠ 0) (d : Word) :
    d.toNat < x.toNat :=
  calc d.toNat
    _ < 2 ^ 64 := d.isLt
    _ ≤ 2 ^ (64 * i) := Nat.pow_le_pow_right (by decide) (by omega)
    _ ≤ x.toNat := le_of_wordOf_ne_zero h

/-- Settles O9: CMPR is the three-way result, and a word above word 0 that is not 0 makes LA the larger. -/
theorem cmpsComparesWithScalar : Obligations.CmpsComparesWithScalar := by
  refine ⟨rfl, fun s => ⟨_, exec_eq_complete .cmps s, ?_⟩⟩
  obtain ⟨hlt, heq, hgt⟩ := cmprWord_threeWay_cases s.la.toNat s.lscl.toNat
  exact ⟨hlt, heq, hgt, fun ⟨_, hi, _, hw⟩ => hgt (scalar_lt_of_wordOf_ne_zero hi hw s.lscl),
    completedWith_of_success rfl s, rfl, othersKept_exec (exec_eq_complete .cmps s)⟩

/-- R125: two numbers compare as their top digits, and as what stands below where these are equal. -/
theorem threeWay_digit {x y l m p : Nat} (hl : l < p) (hm : m < p) :
    threeWay (x * p + l) (y * p + m) = if x = y then threeWay l m else if x < y then -1 else 1 := by
  rcases Nat.lt_trichotomy x y with h | rfl | h
  · have hlt := (mul_add_lt h hl).trans_le (Nat.le_add_right _ m)
    rw [if_neg h.ne, if_pos h, threeWay, if_pos hlt]
  · simp only [threeWay, Nat.add_lt_add_iff_left, Nat.add_left_cancel_iff, if_true]
  · have hlt := (mul_add_lt h hm).trans_le (Nat.le_add_right _ l)
    rw [if_neg h.ne', if_neg h.not_gt, threeWay, if_neg hlt.not_gt, if_neg hlt.ne']

/-- R125: the scan from word `k - 1` down compares the values of the low `k` words. -/
theorem scanBelow_eq_threeWay (a b : Val512) (k : Nat) :
    scanBelow a b k = threeWay (a.toNat % 2 ^ (64 * k)) (b.toNat % 2 ^ (64 * k)) := by
  induction k with
  | zero => rw [Nat.mul_zero, Nat.pow_zero, Nat.mod_one, Nat.mod_one]; rfl
  | succ k ih =>
    rw [scanBelow, ih, mod_two_pow_succ_word, mod_two_pow_succ_word, ← toNat_wordOf, ← toNat_wordOf,
      threeWay_digit (Nat.mod_lt _ (Nat.two_pow_pos _)) (Nat.mod_lt _ (Nat.two_pow_pos _))]
    simp only [BitVec.toNat_inj]

/-- R125: the word scan is the compare of the values. -/
theorem scanCompare_eq_threeWay (a b : Val512) : scanCompare a b = threeWay a.toNat b.toNat := by
  rw [scanCompare, scanBelow_eq_threeWay, Nat.mod_eq_of_lt a.isLt, Nat.mod_eq_of_lt b.isLt]

/-- R125, from R10: the value with fewer significant words is the smaller. -/
theorem lt_of_sigWidth_lt {a b : Val512} (h : sigWidth a < sigWidth b) : a.toNat < b.toNat := by
  have hb : b ≠ 0 := by
    rintro rfl
    exact wordOf_top_ne_zero 0 8 (Nat.zero_lt_of_lt h) (by simp [wordOf])
  by_contra hle
  exact absurd (sigWidth_mono a b hb (Nat.le_of_not_lt hle)) (Nat.not_le.mpr h)

/-- Settles O10: CMPR is the three-way result, which the word scan and the significant widths also give. -/
theorem cmpComparesValues : Obligations.CmpComparesValues := by
  refine ⟨rfl, fun s => ⟨_, exec_eq_complete .cmp s, ?_⟩⟩
  obtain ⟨hlt, heq, hgt⟩ := cmprWord_threeWay_cases s.la.toNat s.lb.toNat
  exact ⟨hlt, heq, hgt, congrArg cmprWord (scanCompare_eq_threeWay s.la s.lb).symm, fun h => hlt (lt_of_sigWidth_lt h),
    completedWith_of_success rfl s, rfl, othersKept_exec (exec_eq_complete .cmp s)⟩

end Sys2Proof.Machine
end

section
/-! PROOFS, 40_primitives.md R126 to R128: SUBB's difference and borrow, the borrow chain over the words, and two
chained SUBB. -/

namespace Sys2Proof.Machine

set_option exponentiation.threshold 600

/-- A difference taken modulo `m` and its borrow: the borrow pays back what the modulus added. -/
theorem emod_eq_add_borrow {d m : Int} (hlow : -m ≤ d) (hhigh : d < m) :
    d % m = d + m * (decide (d < 0)).toNat := by
  by_cases hneg : d < 0
  · rw [decide_eq_true hneg, Bool.toNat_true, Nat.cast_one, Int.mul_one, ← Int.add_emod_right]
    exact Int.emod_eq_of_lt (by omega) (by omega)
  · rw [decide_eq_false hneg, Bool.toNat_false, Nat.cast_zero, Int.mul_zero, Int.add_zero]
    exact Int.emod_eq_of_lt (by omega) hhigh

/-- A store into a register truncates (00_scope.md section 6). -/
theorem toNat_ofInt_eq_emod (n : Nat) (d : Int) : ((BitVec.ofInt n d).toNat : Int) = d % 2 ^ n := by
  have hcast : ((2 ^ n : Nat) : Int) = 2 ^ n := Nat.cast_pow 2 n
  rw [BitVec.toNat_ofInt, hcast, Int.toNat_of_nonneg (Int.emod_nonneg _ (by positivity))]

/-- R126: Q and BORROW of SUBB together are the exact difference. -/
theorem subb_spec (bin : BitVec 1) {s t : State} (h : exec (.subb bin) s = .next t) :
    (t.q.toNat : Int) = (s.la.toNat : Int) - s.lb.toNat - bin.toNat + 2 ^ 512 * t.status.borrow.toNat := by
  have ha := s.la.isLt
  have hb := s.lb.isLt
  have hbin := bin.isLt
  cases h
  exact (toNat_ofInt_eq_emod 512 (subbDiff s.la s.lb bin)).trans
    (emod_eq_add_borrow (by unfold subbDiff; omega) (by unfold subbDiff; omega))

/-- Settles O11: Q is the difference modulo `2^512`, and BORROW says that the difference is negative. -/
theorem subbSubtractsWithBorrow : Obligations.SubbSubtractsWithBorrow := by
  refine ⟨rfl, rfl, fun s bin => ⟨_, exec_eq_complete (.subb bin) s, toNat_ofInt_eq_emod 512 _, ?_,
    completedWith_of_success rfl s, othersKept_exec (exec_eq_complete (.subb bin) s)⟩⟩
  refine decide_eq_true_iff.trans ?_
  unfold subbDiff
  omega

/-! ### The borrow chain -/

/-- R8: a list of words is below `2^64` to its length. -/
theorem wordsVal_lt (ws : List Word) : wordsVal ws < 2 ^ (64 * ws.length) := by
  induction ws with
  | nil => exact Nat.one_pos
  | cons w ws ih =>
    rw [wordsVal, List.length_cons, two_pow_split (show 64 * (ws.length + 1) = 64 * ws.length + 64 by omega)]
    have := mul_add_lt ih w.isLt
    omega

/-- R8: equally many words of one value are the same words. -/
theorem eq_of_wordsVal_eq {us vs : List Word} (hlen : us.length = vs.length) (h : wordsVal us = wordsVal vs) :
    us = vs := by
  induction us generalizing vs with
  | nil => exact (List.length_eq_zero_iff.mp hlen.symm).symm
  | cons u us ih =>
    match vs with
    | v :: vs =>
      have hu := u.isLt
      have hv := v.isLt
      simp only [wordsVal] at h
      rw [ih (Nat.succ.inj hlen) (by omega), BitVec.eq_of_toNat_eq (show u.toNat = v.toNat by omega)]

/-- R8: the words of a value make that value. -/
theorem wordsVal_wordsOf (x : Val512) : wordsVal (wordsOf x) = x.toNat := by
  have hwords : wordsVal (wordsOf x) = ∑ i ∈ Finset.range 8, (wordOf x i).toNat * 2 ^ (64 * i) := by
    simp only [Finset.sum_range_succ, Finset.sum_range_zero, wordsOf, List.range, List.range.loop, List.map_cons,
      List.map_nil, wordsVal]
    ring
  rw [hwords, ← toNat_mod_eq_sum_words, Nat.mod_eq_of_lt x.isLt]

theorem length_wordsOf (x : Val512) : (wordsOf x).length = 8 := rfl

/-- R127: one word of the chain is an exact difference with its borrow. -/
theorem subWord_spec (a b : Word) (borrow : Bool) :
    ((subWord a b borrow).1.toNat : Int) =
      (a.toNat : Int) - b.toNat - borrow.toNat + 2 ^ 64 * (subWord a b borrow).2.toNat := by
  have ha := a.isLt
  have hb := b.isLt
  have hborrow := borrow.toNat_lt
  exact (toNat_ofInt_eq_emod 64 _).trans (emod_eq_add_borrow (by omega) (by omega))

theorem length_subChain {as bs : List Word} (hlen : as.length = bs.length) (borrow : Bool) :
    (subChain as bs borrow).1.length = as.length := by
  induction as generalizing bs borrow with
  | nil => rfl
  | cons a as ih =>
    match bs with
    | b :: bs => exact congrArg Nat.succ (ih (Nat.succ.inj hlen) _)

/-- R127: so is the whole chain, whose last borrow weighs one place above its words. -/
theorem subChain_spec {as bs : List Word} (hlen : as.length = bs.length) (borrow : Bool) :
    (wordsVal (subChain as bs borrow).1 : Int) = (wordsVal as : Int) - wordsVal bs - borrow.toNat
      + 2 ^ (64 * as.length) * (subChain as bs borrow).2.toNat := by
  induction as generalizing bs borrow with
  | nil =>
    obtain rfl := List.length_eq_zero_iff.mp hlen.symm
    simp [subChain, wordsVal]
  | cons a as ih =>
    match bs with
    | b :: bs =>
      have hword := subWord_spec a b borrow
      have hrest := ih (Nat.succ.inj hlen) (subWord a b borrow).2
      simp only [subChain, wordsVal, List.length_cons, Nat.mul_add, pow_add]
      push_cast
      linear_combination hword + 2 ^ 64 * hrest

/-- One exact difference has one digit and one borrow. -/
theorem digit_borrow_unique {x y m : Nat} {b c : Bool} {d : Int} (hx : x < m) (hy : y < m)
    (hxd : (x : Int) = d + m * b.toNat) (hyd : (y : Int) = d + m * c.toNat) : x = y ∧ b = c := by
  have hdigit {z : Nat} {e : Bool} (hz : z < m) (h : (z : Int) = d + m * e.toNat) : (z : Int) = d % m := by
    rw [← Int.add_mul_emod_self_left d m e.toNat, ← h]
    exact (Int.emod_eq_of_lt (Int.natCast_nonneg z) (Int.ofNat_lt.mpr hz)).symm
  obtain rfl : x = y := Int.natCast_inj.mp ((hdigit hx hxd).trans (hdigit hy hyd).symm)
  have hm : (m : Int) ≠ 0 := by omega
  have hweight : (m : Int) * b.toNat = m * c.toNat := by omega
  have hinj : ∀ b c : Bool, b.toNat = c.toNat → b = c := by decide
  exact ⟨rfl, hinj b c (Int.natCast_inj.mp (Int.eq_of_mul_eq_mul_left hm hweight))⟩

/-- R90, R127: the BIN field as the borrow that the chain starts from. -/
theorem toNat_decide_eq_one (bin : BitVec 1) : (decide (bin = 1)).toNat = bin.toNat := by
  revert bin
  decide

/-- Settles O12: the chain and SUBB give one difference with one borrow, and the eight words of a value are unique. -/
theorem subbRunsTheBorrowChain : Obligations.SubbRunsTheBorrowChain := by
  intro s bin
  have hexec := exec_eq_complete (.subb bin) s
  refine ⟨_, hexec, ?_⟩
  have hwords := (length_wordsOf s.la).trans (length_wordsOf s.lb).symm
  have hlen : (subChain (wordsOf s.la) (wordsOf s.lb) (decide (bin = 1))).1.length = 8 :=
    (length_subChain hwords _).trans (length_wordsOf s.la)
  have hchain := subChain_spec hwords (decide (bin = 1))
  rw [wordsVal_wordsOf, wordsVal_wordsOf, toNat_decide_eq_one, length_wordsOf] at hchain
  have hlt := hlen ▸ wordsVal_lt (subChain (wordsOf s.la) (wordsOf s.lb) (decide (bin = 1))).1
  obtain ⟨hval, hborrow⟩ := digit_borrow_unique (BitVec.isLt _) hlt (subb_spec bin hexec) hchain
  exact Prod.ext (eq_of_wordsVal_eq hlen.symm ((wordsVal_wordsOf _).trans hval)) hborrow

/-! ### Two SUBB in a chain -/

/-- R128: a difference of two digits, the second of which takes the borrow of the first, and its borrow. -/
theorem two_digit_difference {m ql qh al ah bl bh : Nat} {b c : Bool} (hl : ql < m) (hh : qh < m)
    (hlow : (ql : Int) = (al : Int) - bl + m * b.toNat) (hhigh : (qh : Int) = (ah : Int) - bh - b.toNat + m * c.toNat) :
    ((qh * m + ql : Nat) : Int) = (((ah * m + al : Nat) : Int) - (bh * m + bl : Nat)) % ((m : Int) * m) ∧
      (c = true ↔ ah * m + al < bh * m + bl) := by
  have hlt := mul_add_lt hh hl
  have hsum : ((qh * m + ql : Nat) : Int) =
      ((ah * m + al : Nat) : Int) - (bh * m + bl : Nat) + (m * m : Nat) * c.toNat := by
    push_cast
    linear_combination (m : Int) * hhigh + hlow
  constructor
  · rw [← Nat.cast_mul, ← Int.add_mul_emod_self_left _ _ (c.toNat : Int), ← hsum]
    exact (Int.emod_eq_of_lt (by omega) (by exact_mod_cast hlt)).symm
  · cases c with
    | false => exact iff_of_false Bool.false_ne_true (by rw [Bool.toNat_false] at hsum; omega)
    | true => exact iff_of_true rfl (by rw [Bool.toNat_true] at hsum; omega)

/-- Settles O13: Q of the two SUBB are the two digits of the 1024-bit difference, at base `2^512`. -/
theorem subbChainsPast512Bits : Obligations.SubbChainsPast512Bits := by
  intro low high
  obtain ⟨t, ht⟩ : ∃ t, exec (.subb 0) low = .next t := ⟨_, exec_eq_complete _ low⟩
  obtain ⟨u, hu⟩ : ∃ u, exec (.subb (BitVec.ofBool t.status.borrow)) high = .next u := ⟨_, exec_eq_complete _ high⟩
  have hlow := subb_spec 0 ht
  have hhigh := subb_spec _ hu
  rw [BitVec.toNat_ofBool] at hhigh
  have hsq : (2 : Int) ^ 1024 = ((2 ^ 512 : Nat) : Int) * (2 ^ 512 : Nat) := by rw [Nat.cast_pow, ← pow_add]; rfl
  rw [hsq]
  exact ⟨t, u, ht, hu, two_digit_difference t.q.isLt u.q.isLt (by simpa using hlow) (by simpa using hhigh)⟩

end Sys2Proof.Machine
end

section
/-! PROOFS, 41_single_word_division.md R170 to R177 and 60_exceptions.md R241: the word step and the loop of DIVS, what DIVS
leaves with either divisor, its edge cases, digit extraction, DivideByZero, and the frames of DIVS and DIV. -/

namespace Sys2Proof.Machine

set_option exponentiation.threshold 600

/-! ### The word step and the loop -/

/-- R174: each step of the loop hands a remainder below the divisor to the next one. -/
theorem toNat_divsLoop_remainder_lt (x : Val512) {d : Word} (k : Nat) (q : Val512) {r : Word}
    (hr : r.toNat < d.toNat) : (divsLoop x d k (q, r)).2.toNat < d.toNat := by
  induction k generalizing q r with
  | zero => exact hr
  | succ i ih =>
    obtain ⟨-, -, hstep⟩ := div128by64_spec r (wordOf x i) d hr
    exact ih _ hstep

/-- Settles O14: with hi < d the dividend is below `d · 2^64`, so its quotient fits a word. -/
theorem wordDivideIsExact : Obligations.WordDivideIsExact := by
  refine ⟨fun hi lo d h => ?_, fun x q d r k => toNat_divsLoop_remainder_lt x k q⟩
  have hN : hi.toNat * 2 ^ 64 + lo.toNat < d.toNat * 2 ^ 64 := mul_add_lt h lo.isLt
  exact ⟨Nat.le_sub_one_of_lt hN, Nat.div_lt_of_lt_mul hN, div128by64_spec hi lo d h⟩

/-! ### What a division leaves -/

theorem toNat_pos_iff_ne_zero {n : Nat} {d : BitVec n} : 0 < d.toNat ↔ d ≠ 0 :=
  Nat.pos_iff_ne_zero.trans (not_congr (BitVec.toNat_eq (y := 0)).symm)

/-- R171, R192, R241: a command that reports code −1 sets RC and DZ, clears ILL, and leaves OVR as it was. -/
theorem completedWith_of_divideByZero {e : Effect} (h : e.code = .divideByZero) (s : State) :
    CompletedWith 0xFFFFFFFFFFFFFFFF true false s (complete s e) := by
  simp [CompletedWith, h]

/-- R171: DIVS with a zero divisor. -/
theorem effectOf_divs_of_zero {s : State} (hd : s.lscl = 0) :
    effectOf .divs s = { q := some 0, rs := some 0, code := .divideByZero } := if_pos hd

/-- R170: DIVS with a non-zero divisor. -/
theorem effectOf_divs_of_ne_zero {s : State} (hd : s.lscl ≠ 0) :
    effectOf .divs s =
      { q := some (divsCore s.la s.lscl).1, rs := some (divsCore s.la s.lscl).2, code := .success } := if_neg hd

/-- R192: DIV with a zero divisor. -/
theorem effectOf_div_of_zero {s : State} (hb : s.lb = 0) :
    effectOf .div s = { q := some 0, r := some 0, code := .divideByZero } := if_pos hb

/-- R190: DIV with a non-zero divisor. -/
theorem effectOf_div_of_ne_zero {s : State} (hb : s.lb ≠ 0) :
    effectOf .div s =
      { q := some (longDivide s.la s.lb).1, r := some (longDivide s.la s.lb).2, code := .success } := if_neg hb

/-- R171: the zeros and the code −1 of DIVS with a zero divisor. -/
theorem complete_divs_of_zero {s : State} (hd : s.lscl = 0) :
    (complete s (effectOf .divs s)).q = 0 ∧ (complete s (effectOf .divs s)).rs = 0 ∧
      CompletedWith 0xFFFFFFFFFFFFFFFF true false s (complete s (effectOf .divs s)) := by
  rw [effectOf_divs_of_zero hd]
  exact ⟨rfl, rfl, completedWith_of_divideByZero rfl s⟩

/-- R192: the zeros and the code −1 of DIV with a zero divisor. -/
theorem complete_div_of_zero {s : State} (hb : s.lb = 0) :
    (complete s (effectOf .div s)).q = 0 ∧ (complete s (effectOf .div s)).r = 0 ∧
      CompletedWith 0xFFFFFFFFFFFFFFFF true false s (complete s (effectOf .div s)) := by
  rw [effectOf_div_of_zero hb]
  exact ⟨rfl, rfl, completedWith_of_divideByZero rfl s⟩

/-- R170: the results of the loop and the code 0 of DIVS with a non-zero divisor. -/
theorem complete_divs_of_ne_zero {s : State} (hd : s.lscl ≠ 0) :
    (complete s (effectOf .divs s)).q = (divsCore s.la s.lscl).1 ∧
      (complete s (effectOf .divs s)).rs = (divsCore s.la s.lscl).2 ∧
      CompletedWith 0 false false s (complete s (effectOf .divs s)) := by
  rw [effectOf_divs_of_ne_zero hd]
  exact ⟨rfl, rfl, completedWith_of_success rfl s⟩

/-- R175: the remainder that DIVS by a non-zero divisor writes. -/
theorem toNat_rs_complete_divs {s : State} (hd : s.lscl ≠ 0) :
    (complete s (effectOf .divs s)).rs.toNat = s.la.toNat % s.lscl.toNat := by
  obtain ⟨-, hrs, -⟩ := complete_divs_of_ne_zero hd
  rw [hrs]
  exact (divsCore_spec s.la s.lscl hd).2

/-- R31: every command but SUBB leaves BORROW. -/
theorem borrow_complete_of_not_subb {i : Instr} (hi : ∀ bin, i ≠ .subb bin) (s : State) :
    (complete s (effectOf i s)).status.borrow = s.status.borrow := by
  by_contra hne
  obtain ⟨bin, h⟩ := instr_of_effectOf_borrow (isSome_of_getD_ne hne)
  exact hi bin h

/-- R175: no other pair meets the two conditions of a floor quotient and remainder. -/
theorem eq_div_and_eq_mod {a d q r : Nat} (hsum : a = q * d + r) (hr : r < d) : q = a / d ∧ r = a % d := by
  have hunique : a / d = q ∧ a % d = r :=
    (Nat.div_mod_unique (Nat.zero_lt_of_lt hr)).mpr ⟨by rw [hsum]; ring, hr⟩
  exact hunique.imp Eq.symm Eq.symm

/-- Settles O15: DIVS leaves the quotient and remainder of the loop, which R175's two conditions determine. -/
theorem divsDividesByScalar : Obligations.DivsDividesByScalar := by
  have hborrow := borrow_complete_of_not_subb (i := .divs) nofun
  refine ⟨rfl, fun s hd => ⟨_, exec_eq_complete .divs s, ?_⟩, fun s hd => ⟨_, exec_eq_complete .divs s, ?_⟩⟩
  · obtain ⟨hq, hrs, hcode⟩ := complete_divs_of_ne_zero hd
    have hsum := (Nat.div_add_mod' s.la.toNat s.lscl.toNat).symm
    have hmod := Nat.mod_lt s.la.toNat (toNat_pos_iff_ne_zero.mpr hd)
    have hkept := othersKept_exec (exec_eq_complete .divs s)
    rw [toNat_q_complete_divs hd, toNat_rs_complete_divs hd]
    exact ⟨hq, hrs, rfl, rfl, hsum, hmod, fun q r => eq_div_and_eq_mod, hcode, hborrow s, hkept⟩
  · obtain ⟨hq, hrs, hcode⟩ := complete_divs_of_zero hd
    exact ⟨hq, hrs, hcode, hborrow s, othersKept_exec (exec_eq_complete .divs s)⟩

/-! ### Edge cases and digit extraction -/

/-- R176: DIVS that divides without remainder. -/
theorem divs_exact {s : State} (hd : s.lscl ≠ 0) {q : Val512} (h : s.la.toNat = q.toNat * s.lscl.toNat) :
    (complete s (effectOf .divs s)).q = q ∧ (complete s (effectOf .divs s)).rs = 0 := by
  have hpos : 0 < s.lscl.toNat := toNat_pos_iff_ne_zero.mpr hd
  constructor
  · apply BitVec.eq_of_toNat_eq
    rw [toNat_q_complete_divs hd, h, Nat.mul_div_cancel _ hpos]
  · apply BitVec.eq_of_toNat_eq
    rw [toNat_rs_complete_divs hd, h, Nat.mul_mod_left]
    rfl

/-- R122: the quotient by `2^n` that SHR writes. -/
theorem toNat_q_complete_shr {s : State} (hn : s.lshamt.toNat < 512) :
    (complete s (effectOf .shr s)).q.toNat = s.la.toNat / 2 ^ s.lshamt.toNat :=
  (toNat_shrValue s.la _).trans (if_neg (by omega))

/-- Settles O16: three exact divisions, the powers of two, and the zero divisor. -/
theorem divsEdgeCases : Obligations.DivsEdgeCases := by
  intro s
  have hone (hd : s.lscl = 1) :
      (complete s (effectOf .divs s)).q = s.la ∧ (complete s (effectOf .divs s)).rs = 0 :=
    divs_exact (by rw [hd]; decide) (by rw [hd]; exact (Nat.mul_one _).symm)
  have hself (hd : s.lscl ≠ 0) (h : s.la.toNat = s.lscl.toNat) :
      (complete s (effectOf .divs s)).q = 1 ∧ (complete s (effectOf .divs s)).rs = 0 :=
    divs_exact hd (h.trans (Nat.one_mul _).symm)
  have hpow {k : Nat} (hd : s.lscl.toNat = 2 ^ k) :
      (complete s (effectOf .divs s)).q.toNat = s.la.toNat / 2 ^ k ∧
        (complete s (effectOf .divs s)).rs.toNat = s.la.toNat % 2 ^ k := by
    have hne : s.lscl ≠ 0 := toNat_pos_iff_ne_zero.mp (hd ▸ Nat.two_pow_pos k)
    exact hd ▸ ⟨toNat_q_complete_divs hne, toNat_rs_complete_divs hne⟩
  refine ⟨_, exec_eq_complete .divs s, fun ha hd => divs_exact hd ?_, hone, hself, fun k _ hd => hpow hd,
    fun k hk hd hn => ⟨_, exec_eq_complete .shr s, ?_⟩, fun hd => ?_, fun hd ha => (congrArg _ (hone hd).1).trans ha⟩
  · rw [ha]
    exact (Nat.zero_mul _).symm
  · apply BitVec.eq_of_toNat_eq
    rw [toNat_q_complete_shr (by omega), hn, (hpow hd).1]
  · rw [effectOf_divs_of_zero hd]
    exact ⟨codeWord_divideByZero, rfl⟩

/-- R177: the host copies Q back into OPA and issues DIVS again. -/
def reissueDivs (t : State) : State := accept { t with opa := t.q } (encode .divs)

theorem repeatDivs_succ (k : Nat) (s : State) :
    repeatDivs (k + 1) s = repeatDivs k (reissueDivs (complete s (effectOf .divs s))) := rfl

/-- R177: `k` rounds of DIVS by `d` leave the dividend divided by `d^k`, and the divisor as it was. -/
theorem exists_repeatDivs {d : Word} (hd : d ≠ 0) (k : Nat) {s : State} (hscl : s.scl = d) (hlscl : s.lscl = d) :
    ∃ u, repeatDivs k s = .next u ∧ u.lscl = d ∧ u.la.toNat = s.la.toNat / d.toNat ^ k := by
  induction k generalizing s with
  | zero => exact ⟨s, rfl, hlscl, by rw [pow_zero, Nat.div_one]⟩
  | succ k ih =>
    have hla : (reissueDivs (complete s (effectOf .divs s))).la.toNat = s.la.toNat / d.toNat :=
      hlscl ▸ toNat_q_complete_divs (hlscl ▸ hd)
    obtain ⟨u, hrun, hu, hdiv⟩ := ih (s := reissueDivs (complete s (effectOf .divs s))) hscl hscl
    refine ⟨u, (repeatDivs_succ k s).trans hrun, hu, ?_⟩
    rw [hdiv, hla, Nat.div_div_eq_div_mul, pow_succ']

/-- Settles O17: after `k` rounds the dividend is `A div 10^k`, and the next DIVS splits off its last digit. -/
theorem repeatedDivsGivesDigits : Obligations.RepeatedDivsGivesDigits := by
  intro k s hscl hlscl
  have hten_ne : (10 : Word) ≠ 0 := by decide
  obtain ⟨u, hrun, hd, hla⟩ := exists_repeatDivs hten_ne k hscl hlscl
  have hne : u.lscl ≠ 0 := hd ▸ hten_ne
  have hten : (10 : Word).toNat = 10 := rfl
  refine ⟨u, _, hrun, exec_eq_complete .divs u, ?_, ?_⟩
  · rw [toNat_rs_complete_divs hne, hla, hd, hten]
  · rw [toNat_q_complete_divs hne, hla, hd, hten, Nat.div_div_eq_div_mul, pow_succ]

/-! ### DivideByZero -/

/-- R29: −1 is the code of DivideByZero alone. -/
theorem codeWord_eq_neg_one_iff (c : Code) : codeWord c = 0xFFFFFFFFFFFFFFFF ↔ c = .divideByZero := by
  cases c <;> decide

/-- R241: DivideByZero is the code of a division by zero alone. -/
theorem code_eq_divideByZero_iff (i : Instr) (s : State) :
    (effectOf i s).code = .divideByZero ↔ (i = .div ∧ s.lb = 0) ∨ (i = .divs ∧ s.lscl = 0) := by
  constructor
  · intro h
    obtain rfl | rfl := instr_of_divideByZero h
    · refine .inl ⟨rfl, by_contra fun hb => ?_⟩
      rw [effectOf_div_of_ne_zero hb] at h
      cases h
    · refine .inr ⟨rfl, by_contra fun hd => ?_⟩
      rw [effectOf_divs_of_ne_zero hd] at h
      cases h
  · rintro (⟨rfl, hb⟩ | ⟨rfl, hd⟩)
    · rw [effectOf_div_of_zero hb]
    · rw [effectOf_divs_of_zero hd]

/-- Settles O18: RC and DZ tell the code, and a division by zero puts zeros in its two result registers. -/
theorem divideByZeroIsReported : Obligations.DivideByZeroIsReported := by
  intro i s
  have hkept := othersKept_exec (exec_eq_complete i s)
  refine ⟨_, exec_eq_complete i s, (codeWord_eq_neg_one_iff _).trans (code_eq_divideByZero_iff i s),
    decide_eq_true_iff.trans (code_eq_divideByZero_iff i s), ?_, ?_⟩
  · rintro rfl hb
    obtain ⟨hq, hr, hcode⟩ := complete_div_of_zero hb
    exact ⟨hq, hr, hcode, hkept⟩
  · rintro rfl hd
    obtain ⟨hq, hrs, hcode⟩ := complete_divs_of_zero hd
    exact ⟨hq, hrs, hcode, hkept⟩

/-! ### Frames -/

/-- Settles O56: DIVS writes RS and Q, DIV writes Q and R, and neither has a BORROW of its own. -/
theorem divisionFrame : Obligations.DivisionFrame := by
  refine ⟨fun s t h => ⟨fun a hcodes hrs hq => windowByte_of_exec h hcodes fun reg hreg hbyte => ?_, ?_⟩,
    fun s t h => ⟨fun a hcodes hqr => windowByte_of_exec h hcodes fun reg hreg hbyte => ?_, ?_⟩⟩
  · obtain rfl | hreg := List.mem_cons.mp hreg
    · exact hrs hbyte
    · exact hq (hasByte_of_mem_wideRegs hreg hbyte)
  · cases h
    exact ⟨borrow_complete_of_not_subb (i := .divs) nofun s, rfl, rfl, rfl⟩
  · obtain hreg | hreg := List.mem_append.mp hreg
    · have hq : 0x0C0 ≤ a ∧ a < 0x100 := hasByte_of_mem_wideRegs hreg hbyte
      omega
    · have hr : 0x100 ≤ a ∧ a < 0x140 := hasByte_of_mem_wideRegs hreg hbyte
      omega
  · cases h
    exact ⟨borrow_complete_of_not_subb (i := .div) nofun s, rfl, rfl, rfl⟩

end Sys2Proof.Machine
end

section
/-! PROOFS, 42_multi_word_division.md R199 and R200: the word-level multiply and subtract and the word-level add-back,
by the exact value that the words and the last borrow or carry make. -/

namespace Sys2Proof.Machine

/-- An exact difference with its borrow: the digit is the difference modulo `m`, and it borrows where it is negative. -/
theorem emod_and_neg_iff_of_borrow {x m : Nat} {d : Int} {b : Bool} (hx : x < m)
    (h : (x : Int) = d + m * b.toNat) : (x : Int) = d % m ∧ (b = true ↔ d < 0) := by
  constructor
  · rw [← Int.add_mul_emod_self_left d m b.toNat, ← h]
    exact (Int.emod_eq_of_lt (Int.natCast_nonneg x) (Int.ofNat_lt.mpr hx)).symm
  · cases b with
    | false => exact iff_of_false Bool.false_ne_true (by rw [Bool.toNat_false] at h; omega)
    | true => exact iff_of_true rfl (by rw [Bool.toNat_true] at h; omega)

/-! ### Multiply and subtract -/

/-- R199: a product of two words and a carry of one word carries one word on. -/
theorem mul_add_carry_div_lt (q v : Word) {carry : Nat} (hc : carry < 2 ^ 64) :
    (q.toNat * v.toNat + carry) / 2 ^ 64 < 2 ^ 64 := by
  rw [Nat.div_lt_iff_lt_mul (by decide)]
  calc q.toNat * v.toNat + carry
    _ ≤ (2 ^ 64 - 1) * (2 ^ 64 - 1) + carry :=
      Nat.add_le_add_right (Nat.mul_le_mul (Nat.le_sub_one_of_lt q.isLt) (Nat.le_sub_one_of_lt v.isLt)) _
    _ < 2 ^ 64 * 2 ^ 64 := by omega

/-- R199: one word of the subtraction is an exact difference with its borrow. -/
theorem mulSubWord_spec (u : Word) {c : Nat} (hc : c < 2 ^ 64) (borrow : Bool) :
    ((BitVec.ofInt 64 ((u.toNat : Int) - c - borrow.toNat)).toNat : Int) =
      (u.toNat : Int) - c - borrow.toNat + 2 ^ 64 * (decide ((u.toNat : Int) - c - borrow.toNat < 0)).toNat := by
  have hu := u.isLt
  have hborrow := borrow.toNat_lt
  exact (toNat_ofInt_eq_emod 64 _).trans (emod_eq_add_borrow (by omega) (by omega))

theorem length_mulSubWords (qHat : Word) {vs us : List Word} (hlen : us.length = vs.length + 1) (carry : Nat)
    (borrow : Bool) : (mulSubWords qHat vs us carry borrow).1.length = us.length := by
  induction vs generalizing us carry borrow with
  | nil =>
    match us with
    | [u] => rfl
  | cons v vs ih =>
    match us with
    | u :: us => exact congrArg Nat.succ (ih (Nat.succ.inj hlen) _ _)

/-- R199: the words left and the last borrow, which weighs one place above them, are the exact difference. -/
theorem mulSubWords_spec (qHat : Word) {vs us : List Word} (hlen : us.length = vs.length + 1) {carry : Nat}
    (hc : carry < 2 ^ 64) (borrow : Bool) :
    (wordsVal (mulSubWords qHat vs us carry borrow).1 : Int) =
      mulSub (wordsVal us) qHat.toNat (wordsVal vs) - carry - borrow.toNat
        + 2 ^ (64 * us.length) * (mulSubWords qHat vs us carry borrow).2.toNat := by
  induction vs generalizing us carry borrow with
  | nil =>
    match us with
    | [u] => simpa [mulSubWords, mulSub, wordsVal] using mulSubWord_spec u hc borrow
  | cons v vs ih =>
    match us with
    | u :: us =>
      obtain ⟨p, hp⟩ : ∃ p, p = qHat.toNat * v.toNat + carry := ⟨_, rfl⟩
      have hcarry : p / 2 ^ 64 < 2 ^ 64 := hp ▸ mul_add_carry_div_lt qHat v hc
      have hword := mulSubWord_spec u (Nat.mod_lt p (Nat.two_pow_pos 64)) borrow
      have hrest := ih (Nat.succ.inj hlen) hcarry (decide ((u.toNat : Int) - (p % 2 ^ 64 : Nat) - borrow.toNat < 0))
      have hsplit : (qHat.toNat : Int) * v.toNat + carry = 2 ^ 64 * (p / 2 ^ 64 : Nat) + (p % 2 ^ 64 : Nat) := by
        exact_mod_cast hp.symm.trans (Nat.div_add_mod p (2 ^ 64)).symm
      simp only [mulSub] at hrest ⊢
      simp only [mulSubWords, wordsVal, List.length_cons, Nat.mul_add, pow_add, ← hp]
      push_cast at hword hrest hsplit ⊢
      linear_combination hword + 2 ^ 64 * hrest + hsplit

/-- Settles O27: the words and the last borrow are the exact difference, so they are its residue and its sign. -/
theorem mulSubWordFormAgrees : Obligations.MulSubWordFormAgrees := by
  intro qHat vs us hlen
  have hlength := length_mulSubWords qHat hlen 0 false
  have hspec := mulSubWords_spec qHat hlen (Nat.two_pow_pos 64) false
  have hlt := hlength ▸ wordsVal_lt (mulSubWords qHat vs us 0 false).1
  have h := emod_and_neg_iff_of_borrow (d := mulSub (wordsVal us) qHat.toNat (wordsVal vs)) hlt
    (by simpa using hspec)
  exact ⟨hlength, by simpa using h⟩

/-! ### Add-back -/

theorem length_addBackWords {vs us : List Word} (hlen : us.length = vs.length + 1) (carry : Nat) :
    (addBackWords vs us carry).1.length = us.length := by
  induction vs generalizing us carry with
  | nil =>
    match us with
    | [u] => rfl
  | cons v vs ih =>
    match us with
    | u :: us => exact congrArg Nat.succ (ih (Nat.succ.inj hlen) _)

/-- R200: the words left and the carry out, which weighs one place above them, are the exact sum. -/
theorem addBackWords_spec {vs us : List Word} (hlen : us.length = vs.length + 1) (carry : Nat) :
    wordsVal (addBackWords vs us carry).1 + 2 ^ (64 * us.length) * (addBackWords vs us carry).2 =
      wordsVal us + wordsVal vs + carry := by
  induction vs generalizing us carry with
  | nil =>
    match us with
    | [u] =>
      simp only [addBackWords, wordsVal, List.length_cons, List.length_nil, BitVec.toNat_ofNat]
      omega
  | cons v vs ih =>
    match us with
    | u :: us =>
      have hrest := ih (Nat.succ.inj hlen) ((u.toNat + v.toNat + carry) / 2 ^ 64)
      have hsplit := Nat.mod_add_div (u.toNat + v.toNat + carry) (2 ^ 64)
      simp only [addBackWords, wordsVal, List.length_cons, Nat.mul_add, pow_add, BitVec.toNat_ofNat]
      linear_combination 2 ^ 64 * hrest + hsplit

/-- R200: an add-back to a value that borrows adds the divisor once. -/
theorem addBack_of_neg (v q : Nat) {t : Int} (h : t < 0) : addBack v (q, t) = (q - 1, t + v) := if_pos h

/-- R200: where a residue stands for a negative value, adding to it without a carry out leaves a borrow. -/
theorem no_carry_is_borrow {x w v carry m : Nat} {t : Int} (hw : (w : Int) = t % m) (hneg : t < 0)
    (hlow : -(m : Int) ≤ t) (hv : v < m) (hsum : x + m * carry = w + v) :
    (x : Int) = t + v + m * (decide (carry = 0)).toNat := by
  have hwin : (w : Int) = t + m := by
    rw [hw, ← Int.add_emod_right]
    exact Int.emod_eq_of_lt (by omega) (by omega)
  match carry with
  | 0 => simp only [decide_true, Bool.toNat_true]; omega
  | 1 => simp only [one_ne_zero, decide_false, Bool.toNat_false]; omega
  | c + 2 =>
    have hbig : m * 2 ≤ m * (c + 2) := Nat.mul_le_mul_left m (Nat.le_add_left 2 c)
    omega

/-- Settles O28: the carry out and the integer add-back's sign are one borrow. -/
theorem addBackWordFormAgrees : Obligations.AddBackWordFormAgrees := by
  intro vs us t hlen hneg hlow hus
  have hlength := length_addBackWords hlen 0
  have hlt := hlength ▸ wordsVal_lt (addBackWords vs us 0).1
  have hv : 2 * wordsVal vs < 2 ^ (64 * us.length) := by
    rw [hlen, two_pow_split (show 64 * (vs.length + 1) = 64 + 64 * vs.length by omega)]
    exact Nat.mul_lt_mul_of_lt_of_lt (by decide) (wordsVal_lt vs)
  have hcast : (2 : Int) ^ (64 * us.length) = (2 ^ (64 * us.length) : Nat) := (Nat.cast_pow 2 _).symm
  rw [hcast] at hus ⊢
  have hborrow := no_carry_is_borrow hus hneg (by omega) (by omega) (addBackWords_spec hlen 0)
  obtain ⟨hmod, hsign⟩ := emod_and_neg_iff_of_borrow hlt hborrow
  refine ⟨hlength, hmod, ?_⟩
  rw [addBack_of_neg _ _ hneg, ← hsign, decide_eq_true_iff]

end Sys2Proof.Machine
end

section
/-! PROOFS, 42_multi_word_division.md R195 to R205: normalization, one digit of Algorithm D, and what its loop
leaves. -/

namespace Sys2Proof.Machine

set_option exponentiation.threshold 600

/-! ### Normalization -/

/-- R8: a value below `2^(64·n)` has 0 in word `n` and in every word above it. -/
theorem wordOf_eq_zero_of_lt {m : Nat} {x : BitVec m} {n i : Nat} (h : x.toNat < 2 ^ (64 * n)) (hi : n ≤ i) :
    wordOf x i = 0 := by
  apply BitVec.eq_of_toNat_eq
  rw [toNat_wordOf, Nat.div_eq_of_lt (h.trans_le (Nat.pow_le_pow_right (by decide) (Nat.mul_le_mul_left 64 hi)))]
  rfl

/-- R195: bit 63 of a word that is at least `2^63`. -/
theorem getLsbD_63_of_le {w : Word} (h : 2 ^ 63 ≤ w.toNat) : w.getLsbD 63 = true := by
  have hw := w.isLt
  rw [BitVec.getLsbD, Nat.testBit_eq_decide_div_mod_eq, decide_eq_true_iff]
  omega

/-- R195: the top word of a normalized divisor of `n` words. -/
theorem le_toNat_wordOf_top {v : Val512} {n : Nat} (hn : 0 < n) (hlt : v.toNat < 2 ^ (64 * n))
    (hle : 2 ^ 63 * 2 ^ (64 * (n - 1)) ≤ v.toNat) : 2 ^ 63 ≤ (wordOf v (n - 1)).toNat := by
  rw [toNat_wordOf_top v (n - 1) (by rwa [Nat.sub_add_cancel hn]), Nat.le_div_iff_mul_le (Nat.two_pow_pos _)]
  exact hle

/-- R195: a dividend of m words shifted by less than a word stays below m + 1 words. -/
theorem toNat_mul_shift_lt (a : Val512) {f : Nat} (hf : f < 64) :
    a.toNat * 2 ^ f < 2 ^ (64 * (sigWidth a + 1)) := by
  rw [two_pow_split (show 64 * (sigWidth a + 1) = 64 * sigWidth a + 64 by omega)]
  exact Nat.mul_lt_mul_of_lt_of_lt (lt_sigWidth a) (Nat.pow_lt_pow_right (by decide) hf)

/-- R195: the nine words of the working dividend hold all of A · 2^f. -/
theorem toNat_normDividend (a : Val512) {f : Nat} (hf : f < 64) : (normDividend a f).toNat = a.toNat * 2 ^ f := by
  have hwidth : a.toNat * 2 ^ f < 2 ^ 576 :=
    (toNat_mul_shift_lt a hf).trans_le (Nat.pow_le_pow_right (by decide) (by have := sigWidth_le a; omega))
  have ha : a.toNat < 2 ^ 576 := a.isLt.trans (Nat.pow_lt_pow_right (by decide) (by decide))
  rw [normDividend, BitVec.toNat_shiftLeft, BitVec.toNat_setWidth, Nat.shiftLeft_eq, Nat.mod_eq_of_lt ha,
    Nat.mod_eq_of_lt hwidth]

/-- Settles O23: the shift is that of the divisor's top word, and neither copy loses a bit. -/
theorem normalizationTopsTheDivisor : Obligations.NormalizationTopsTheDivisor := by
  intro a b hb
  obtain ⟨hf, hv, hlt, hle⟩ := normDivisor_spec b hb
  have hu := toNat_normDividend a hf
  have htop := le_toNat_wordOf_top (v := normDivisor b) (sigWidth_pos b hb) (hv ▸ hlt) (hv ▸ hle)
  refine ⟨Nat.le_of_lt_succ hf, hv, hv ▸ hlt, getLsbD_63_of_le htop, hu, hu ▸ toNat_mul_shift_lt a hf,
    fun h0 => wordOf_eq_zero_of_lt ?_ le_rfl, sigWidth_mono a b hb⟩
  rw [hu, h0, Nat.pow_zero, Nat.mul_one]
  exact lt_sigWidth a

/-! ### The trial digit -/

/-- R195: the bounds that the statements on one digit give of the divisor. -/
theorem normalized_of_bounds {v : Val512} {n : Nat} (hn : 2 ≤ n) (hlt : v.toNat < 2 ^ (64 * n))
    (hle : 2 ^ (64 * n - 1) ≤ v.toNat) : Normalized v n where
  two_le := hn
  lt := hlt
  le := by rwa [← two_pow_split (show 64 * n - 1 = 63 + 64 * (n - 1) by omega)]

theorem Normalized.le_top {v : Val512} {n : Nat} (hv : Normalized v n) : 2 ^ 63 ≤ (wordOf v (n - 1)).toNat :=
  le_toNat_wordOf_top (by have := hv.two_le; omega) hv.lt hv.le

/-- R204: a working dividend below b^(j+1) · val(v) has nothing above its window. -/
theorem toNat_lt_above_window {u : Val576} {v : Val512} {n k j : Nat} (hv : Normalized v n)
    (hu : u.toNat < v.toNat * 2 ^ (64 * k)) (hj : j = k + n) : u.toNat < 2 ^ (64 * j) := by
  rw [two_pow_split (show 64 * j = 64 * n + 64 * k by omega)]
  exact hu.trans_le (Nat.mul_le_mul_right _ hv.lt.le)

/-- R197: the top two words of the window are the window without its low n - 1 words. -/
theorem window_top_words {u : Val576} {v : Val512} {n j : Nat} (hv : Normalized v n)
    (hu : u.toNat < v.toNat * 2 ^ (64 * (j + 1))) :
    (wordOf u (j + n)).toNat * 2 ^ 64 + (wordOf u (j + n - 1)).toNat =
      u.toNat / 2 ^ (64 * j) / 2 ^ (64 * (n - 1)) := by
  have hn := hv.two_le
  have htop := toNat_wordOf_top u (j + n) (toNat_lt_above_window hv hu (by omega))
  have hnext := div_word_succ u (j + n - 1)
  rw [Nat.sub_add_cancel (show 1 ≤ j + n by omega), ← htop] at hnext
  rw [← hnext, Nat.div_div_eq_div_mul, ← two_pow_split (show 64 * (j + n - 1) = 64 * j + 64 * (n - 1) by omega)]

/-- R197, R205: the estimate is the window's digit or up to two above it. -/
theorem estimate_window_bounds {u : Val576} {v : Val512} {n j : Nat} (hv : Normalized v n)
    (hu : u.toNat < v.toNat * 2 ^ (64 * (j + 1))) :
    let guess := (estimate ((wordOf u (j + n)).toNat * 2 ^ 64 + (wordOf u (j + n - 1)).toNat)
      (wordOf v (n - 1)).toNat).1
    u.toNat / 2 ^ (64 * j) / v.toNat ≤ guess ∧ guess ≤ u.toNat / 2 ^ (64 * j) / v.toNat + 2 := by
  have hn := hv.two_le
  have hP := Nat.two_pow_pos (64 * (n - 1))
  have htop := toNat_wordOf_top v (n - 1) (by rw [Nat.sub_add_cancel (by omega)]; exact hv.lt)
  have hnorm := hv.le_top
  rw [window_top_words hv hu]
  rw [htop] at hnorm ⊢
  obtain ⟨hge, hle, -, -⟩ := estimate_bounds _ v.toNat _ _ _ (Nat.div_mul_le_self _ _) (lt_div_succ_mul _ _ hP)
    (Nat.div_mul_le_self _ _) (lt_div_succ_mul _ _ hP) hnorm (div_lt_of_digit hu)
  exact ⟨hge, hle⟩

/-- R205: with a trial digit at most one above the digit, one add-back ends the borrow. -/
theorem addBack_nonneg {W V qHat : Nat} (h : qHat ≤ W / V + 1) : 0 ≤ (addBack V (qHat, mulSub W qHat V)).2 := by
  have hmul : (qHat : Int) * V ≤ (W / V + 1) * V := by exact_mod_cast Nat.mul_le_mul_right V h
  have hdiv : ((W / V : Nat) : Int) * V ≤ W := by exact_mod_cast Nat.div_mul_le_self W V
  unfold addBack mulSub
  split
  · push_cast at hdiv
    linarith
  · omega

/-- Settles O24: the estimate and the refined trial digit are near the digit, so one add-back is enough. -/
theorem trialDigitIsNearTheDigit : Obligations.TrialDigitIsNearTheDigit := by
  intro u v n j hn _ hlt hle hu
  have hv := normalized_of_bounds hn hlt hle
  obtain ⟨hguess, hguess'⟩ := estimate_window_bounds hv hu
  obtain ⟨htrial, htrial'⟩ := trialDigit_bounds hv hu
  refine ⟨hguess, hguess', htrial, htrial', refine_settles _ _ _ hv.le_top _, ?_⟩
  rw [window_eq hv hu]
  exact addBack_nonneg htrial'

/-! ### One digit step -/

/-- R200, R204: after its add-backs a digit step has the window's digit and its remainder. -/
theorem digitStep_eq_div_mod {v : Val512} {n j : Nat} {w : LongWork} (hv : Normalized v n)
    (hu : w.u.toNat < v.toNat * 2 ^ (64 * (j + 1))) :
    digitStep v n j w =
      { q := setWord w.q j (BitVec.ofNat 64 (window w.u j n / v.toNat)),
        u := setWindow w.u j n (window w.u j n % v.toNat : Nat) } := by
  obtain ⟨hge, hle⟩ := trialDigit_bounds hv hu
  rw [← window_eq hv hu] at hge hle
  rw [digitStep_eq, correct_spec _ _ _ hv.pos hge (by omega)]

/-- R201, R204: a digit step leaves the partial remainder in the window, above the words below it. -/
theorem toNat_u_digitStep {v : Val512} {n j : Nat} {w : LongWork} (hv : Normalized v n) (hj : j + n ≤ 8)
    (hu : w.u.toNat < v.toNat * 2 ^ (64 * (j + 1))) :
    (digitStep v n j w).u.toNat = window w.u j n % v.toNat * 2 ^ (64 * j) + w.u.toNat % 2 ^ (64 * j) := by
  obtain ⟨-, h⟩ := digitStep_spec (w := ⟨0, w.u⟩) hv hj hu (Nat.zero_mod _)
  rw [window_eq hv hu]
  exact h

/-- Settles O25: the step's digit and remainder are those of the window, and the remainder is below the divisor. -/
theorem digitStepIsExact : Obligations.DigitStepIsExact := by
  intro w v n j hn hj hlt hle hu
  have hv := normalized_of_bounds hn hlt hle
  have hB := Nat.two_pow_pos (64 * j)
  have hlow := Nat.mod_lt w.u.toNat hB
  have hdigit : window w.u j n / v.toNat < 2 ^ 64 :=
    Nat.div_lt_of_lt_mul (window_eq hv hu ▸ div_lt_of_digit hu)
  have hq : ∀ i, wordOf (digitStep v n j w).q i =
      if i = j then BitVec.ofNat 64 (window w.u j n / v.toNat) else wordOf w.q i := by
    rw [digitStep_eq_div_mod hv hu]
    exact wordOf_setWord w.q j (by omega) _
  have hu' := toNat_u_digitStep hv hj hu
  have hlt' : (digitStep v n j w).u.toNat < v.toNat * 2 ^ (64 * j) := by
    rw [hu']
    exact mul_add_lt (Nat.mod_lt _ hv.pos) hlow
  refine ⟨?_, hdigit, fun i hi => ?_, ?_, ?_, ?_⟩
  · rw [hq, if_pos rfl, toNat_ofNat_of_lt hdigit]
  · rw [hq, if_neg hi]
  · have hwide : v.toNat * 2 ^ (64 * j) ≤ v.toNat * 2 ^ (64 * (j + 1)) :=
      Nat.mul_le_mul_left _ (Nat.pow_le_pow_right (by decide) (by omega))
    rw [window_eq hv (hlt'.trans_le hwide), hu', Nat.add_comm, Nat.add_mul_div_right _ _ hB, Nat.div_eq_of_lt hlow,
      Nat.zero_add]
  · exact wordOf_eq_zero_of_lt (toNat_lt_above_window hv hlt' rfl) le_rfl
  · rw [hu', Nat.add_comm, Nat.add_mul_mod_self_right, Nat.mod_mod]

/-! ### What the loop leaves -/

theorem ne_zero_of_sigWidth_pos {b : Val512} (h : 0 < sigWidth b) : b ≠ 0 := by
  rintro rfl
  exact wordOf_top_ne_zero 0 8 h (by simp [wordOf])

/-- R195: the normalized divisor of Algorithm D. -/
theorem normalized_normDivisor {b : Val512} (hb : 2 ≤ sigWidth b) : Normalized (normDivisor b) (sigWidth b) := by
  obtain ⟨-, hv, hlt, hle⟩ := normDivisor_spec b (ne_zero_of_sigWidth_pos (by omega))
  exact ⟨hb, hv ▸ hlt, hv ▸ hle⟩

/-- R196: at the first position of the loop, m - n, the dividend's digit fits one word. -/
theorem normDividend_lt {a b : Val512} (hb : 2 ≤ sigWidth b) (hm : sigWidth b ≤ sigWidth a) :
    (normDividend a (normShift b)).toNat < (normDivisor b).toNat * 2 ^ (64 * (sigWidth a - sigWidth b + 1)) := by
  obtain ⟨hf, -, -, -⟩ := normDivisor_spec b (ne_zero_of_sigWidth_pos (by omega))
  calc (normDividend a (normShift b)).toNat
    _ = a.toNat * 2 ^ normShift b := toNat_normDividend a hf
    _ < 2 ^ (64 * sigWidth a) * 2 ^ 63 :=
      Nat.mul_lt_mul_of_lt_of_le (lt_sigWidth a) (Nat.pow_le_pow_right (by decide) (by omega)) (by decide)
    _ = 2 ^ 63 * 2 ^ (64 * (sigWidth b - 1)) * 2 ^ (64 * (sigWidth a - sigWidth b + 1)) := by
      rw [← pow_add, ← pow_add, ← pow_add]
      congr 1
      omega
    _ ≤ _ := Nat.mul_le_mul_right _ (normalized_normDivisor hb).le

/-- R196, R204: the loop, begun with no digit, splits the dividend into the digits times the divisor and a rest
below it. -/
theorem digitLoop_of_zero_quotient {v : Val512} {n : Nat} (hv : Normalized v n) {k : Nat} (hk : k + n ≤ 9) {u : Val576}
    (hu : u.toNat < v.toNat * 2 ^ (64 * k)) :
    u.toNat = (digitLoop v n k ⟨0, u⟩).q.toNat * v.toNat + (digitLoop v n k ⟨0, u⟩).u.toNat ∧
      (digitLoop v n k ⟨0, u⟩).u.toNat < v.toNat := by
  obtain ⟨hlt, hsum⟩ := digitLoop_spec hv k hk ⟨0, u⟩ hu (Nat.zero_mod _)
  rw [hsum]
  exact ⟨by simp, hlt⟩

/-- R196, R204: so does the loop of Algorithm D. -/
theorem algDWork_spec {a b : Val512} (hb : 2 ≤ sigWidth b) (hab : b.toNat ≤ a.toNat) :
    (normDividend a (normShift b)).toNat =
        (algDWork a b).q.toNat * (normDivisor b).toNat + (algDWork a b).u.toNat ∧
      (algDWork a b).u.toNat < (normDivisor b).toNat := by
  have hm := sigWidth_mono a b (ne_zero_of_sigWidth_pos (by omega)) hab
  have hm8 := sigWidth_le a
  exact digitLoop_of_zero_quotient (normalized_normDivisor hb) (by omega) (normDividend_lt hb hm)

/-- R202: the loop leaves the remainder shifted by f. -/
theorem toNat_u_algDWork {a b : Val512} (hb : 2 ≤ sigWidth b) (hab : b.toNat ≤ a.toNat) :
    (algDWork a b).u.toNat = a.toNat % b.toNat * 2 ^ normShift b := by
  obtain ⟨hf, hv, -, -⟩ := normDivisor_spec b (ne_zero_of_sigWidth_pos (by omega))
  obtain ⟨hsum, hlt⟩ := algDWork_spec hb hab
  obtain ⟨-, hmod⟩ := eq_div_and_eq_mod hsum hlt
  rw [hmod, toNat_normDividend a hf, hv, Nat.mul_mod_mul_right]

/-- Settles O26: the loop leaves (A mod B) · 2^f, and denormalization gives Algorithm D's remainder, below B. -/
theorem normalizedRemainderDenormalizes : Obligations.NormalizedRemainderDenormalizes := by
  intro a b hb hab
  have hu := toNat_u_algDWork hb hab
  obtain ⟨-, hrem⟩ := algD_spec a b hb hab
  have hpos := toNat_pos_iff_ne_zero.mpr (ne_zero_of_sigWidth_pos (show 0 < sigWidth b by omega))
  refine ⟨hu, hu ▸ Nat.mul_mod_left _ _, hrem, fun i hi => wordOf_eq_zero_of_lt (n := sigWidth b) ?_ hi⟩
  exact (hrem.trans_lt (Nat.mod_lt _ hpos)).trans (lt_sigWidth b)

end Sys2Proof.Machine
end

section
/-! PROOFS, 42_multi_word_division.md R190 to R194, R203 and R207: the cases of DIV, the quotient and remainder that it
writes, their high words, and its corner cases. -/

namespace Sys2Proof.Machine

set_option exponentiation.threshold 600

/-! ### The cases of DIV -/

/-- R193: a dividend below the divisor is the remainder. -/
theorem longDivide_of_lt {a b : Val512} (h : a.toNat < b.toNat) : longDivide a b = (0, a) := if_pos h

/-- R194: a divisor of one word is left to DivsCore. -/
theorem longDivide_of_one_word {a b : Val512} (hab : b.toNat ≤ a.toNat) (hb : sigWidth b = 1) :
    longDivide a b = ((divsCore a (wordOf b 0)).1, (divsCore a (wordOf b 0)).2.setWidth 512) := by
  rw [longDivide, if_neg hab.not_gt, if_pos hb]

/-- R190: a divisor of two words or more is left to Algorithm D. -/
theorem longDivide_of_two_words {a b : Val512} (hab : b.toNat ≤ a.toNat) (hb : 2 ≤ sigWidth b) :
    longDivide a b = algD a b := by
  rw [longDivide, if_neg hab.not_gt, if_neg (by omega)]

/-- R194: a word extended with zeros is word 0 of its value. -/
theorem wordOf_setWidth_zero (w : Word) : wordOf (w.setWidth 512) 0 = w := by
  apply BitVec.eq_of_toNat_eq
  rw [toNat_wordOf, BitVec.toNat_setWidth_of_le (by decide), Nat.mul_zero, Nat.pow_zero, Nat.div_one,
    Nat.mod_eq_of_lt w.isLt]

/-- R194: and every other word of it is 0. -/
theorem wordOf_setWidth_of_pos (w : Word) {i : Nat} (hi : 1 ≤ i) : wordOf (w.setWidth 512) i = 0 :=
  wordOf_eq_zero_of_lt (n := 1) (by rw [BitVec.toNat_setWidth_of_le (by decide)]; exact w.isLt) hi

/-- R190: the results of the cases and the code 0 of DIV with a non-zero divisor. -/
theorem complete_div_of_ne_zero {s : State} (hb : s.lb ≠ 0) :
    (complete s (effectOf .div s)).q = (longDivide s.la s.lb).1 ∧
      (complete s (effectOf .div s)).r = (longDivide s.la s.lb).2 ∧
      CompletedWith 0 false false s (complete s (effectOf .div s)) := by
  rw [effectOf_div_of_ne_zero hb]
  exact ⟨rfl, rfl, completedWith_of_success rfl s⟩

/-- Settles O19: DIV leaves the results of the case that its operands select. -/
theorem divTakesItsCases : Obligations.DivTakesItsCases := by
  refine ⟨rfl, fun s => ⟨_, exec_eq_complete .div s, complete_div_of_zero, fun hb => ?_, fun hlt => ?_,
    fun hab hone => ?_, fun hab htwo => ?_, ?_⟩⟩
  · obtain ⟨-, -, hcode⟩ := complete_div_of_ne_zero hb
    exact hcode
  · obtain ⟨hq, hr, -⟩ := complete_div_of_ne_zero (toNat_pos_iff_ne_zero.mp (Nat.zero_lt_of_lt hlt))
    rw [hq, hr, longDivide_of_lt hlt]
    exact ⟨rfl, rfl⟩
  · obtain ⟨hq, hr, -⟩ := complete_div_of_ne_zero (ne_zero_of_sigWidth_pos (show 0 < sigWidth s.lb by omega))
    rw [hq, hr, longDivide_of_one_word hab hone]
    exact ⟨rfl, wordOf_setWidth_zero _, fun _ hi _ => wordOf_setWidth_of_pos _ hi⟩
  · obtain ⟨hq, hr, -⟩ := complete_div_of_ne_zero (ne_zero_of_sigWidth_pos (show 0 < sigWidth s.lb by omega))
    rw [hq, hr, longDivide_of_two_words hab htwo]
    exact ⟨rfl, rfl⟩
  · obtain ⟨hrs, hcmpr, hborrow⟩ := divEffect_unwritten s
    exact ⟨congrArg (·.getD s.rs) hrs, congrArg (·.getD s.cmpr) hcmpr, congrArg (·.getD s.status.borrow) hborrow,
      othersKept_exec (exec_eq_complete .div s)⟩

/-! ### Quotient and remainder -/

/-- R191: the remainder that DIV by a non-zero divisor writes. -/
theorem toNat_r_complete_div {s : State} (hb : s.lb ≠ 0) :
    (complete s (effectOf .div s)).r.toNat = s.la.toNat % s.lb.toNat := by
  obtain ⟨-, hr, -⟩ := complete_div_of_ne_zero hb
  rw [hr]
  exact (longDivide_spec s.la s.lb hb).2

/-- Settles O20: DIV leaves the floor quotient and remainder, which R191's two conditions determine. -/
theorem divGivesQuotientAndRemainder : Obligations.DivGivesQuotientAndRemainder := by
  intro s hb
  refine ⟨_, exec_eq_complete .div s, ?_⟩
  have hsum := (Nat.div_add_mod' s.la.toNat s.lb.toNat).symm
  have hmod := Nat.mod_lt s.la.toNat (toNat_pos_iff_ne_zero.mpr hb)
  have hprod := (Nat.div_mul_le_self s.la.toNat s.lb.toNat).trans_lt s.la.isLt
  rw [toNat_q_complete_div hb, toNat_r_complete_div hb]
  exact ⟨rfl, rfl, hsum, hmod, hprod, fun q r => eq_div_and_eq_mod⟩

/-- R203: a quotient of values of m and n words has at most m - n + 1 words. -/
theorem div_lt_of_sigWidth (a : Val512) {b : Val512} (hb : b ≠ 0) :
    a.toNat / b.toNat < 2 ^ (64 * (sigWidth a - sigWidth b + 1)) := by
  have hn := sigWidth_pos b hb
  rw [Nat.div_lt_iff_lt_mul (toNat_pos_iff_ne_zero.mpr hb)]
  calc a.toNat
    _ < 2 ^ (64 * sigWidth a) := lt_sigWidth a
    _ ≤ 2 ^ (64 * (sigWidth a - sigWidth b + 1) + 64 * (sigWidth b - 1)) := Nat.pow_le_pow_right (by decide) (by omega)
    _ = 2 ^ (64 * (sigWidth a - sigWidth b + 1)) * 2 ^ (64 * (sigWidth b - 1)) := pow_add _ _ _
    _ ≤ _ := Nat.mul_le_mul_left _ (le_of_sigWidth b hb)

/-- Settles O21: the quotient is below m - n + 1 words, the remainder below the divisor's n. -/
theorem divHighWordsAreZero : Obligations.DivHighWordsAreZero := by
  intro s hb _
  refine ⟨_, exec_eq_complete .div s, fun i hi => wordOf_eq_zero_of_lt ?_ hi, fun i hi => wordOf_eq_zero_of_lt ?_ hi⟩
  · rw [toNat_q_complete_div hb]
    exact div_lt_of_sigWidth s.la hb
  · rw [toNat_r_complete_div hb]
    exact (Nat.mod_lt _ (toNat_pos_iff_ne_zero.mpr hb)).trans (lt_sigWidth s.lb)

/-! ### Corner cases -/

/-- R207: DIV that divides without remainder. -/
theorem div_exact {s : State} (hb : s.lb ≠ 0) {q : Val512} (h : s.la.toNat = q.toNat * s.lb.toNat) :
    (complete s (effectOf .div s)).q = q ∧ (complete s (effectOf .div s)).r = 0 := by
  have hpos : 0 < s.lb.toNat := toNat_pos_iff_ne_zero.mpr hb
  constructor
  · apply BitVec.eq_of_toNat_eq
    rw [toNat_q_complete_div hb, h, Nat.mul_div_cancel _ hpos]
  · apply BitVec.eq_of_toNat_eq
    rw [toNat_r_complete_div hb, h, Nat.mul_mod_left]
    rfl

/-- R207: DIV by a power of two. -/
theorem div_two_pow {s : State} {k : Nat} (hb : s.lb.toNat = 2 ^ k) :
    (complete s (effectOf .div s)).q.toNat = s.la.toNat / 2 ^ k ∧
      (complete s (effectOf .div s)).r.toNat = s.la.toNat % 2 ^ k := by
  have hne : s.lb ≠ 0 := toNat_pos_iff_ne_zero.mp (hb ▸ Nat.two_pow_pos k)
  exact hb ▸ ⟨toNat_q_complete_div hne, toNat_r_complete_div hne⟩

/-- R207: DIV and DIVS agree on a divisor of one word. -/
theorem div_eq_divs {s : State} (hd : s.lscl ≠ 0) (hb : s.lb = s.lscl.setWidth 512) :
    (complete s (effectOf .divs s)).q = (complete s (effectOf .div s)).q ∧
      (complete s (effectOf .div s)).r = (complete s (effectOf .divs s)).rs.setWidth 512 := by
  have hval : s.lb.toNat = s.lscl.toNat := by rw [hb, BitVec.toNat_setWidth_of_le (by decide)]
  have hne : s.lb ≠ 0 := toNat_pos_iff_ne_zero.mp (hval ▸ toNat_pos_iff_ne_zero.mpr hd)
  constructor
  · apply BitVec.eq_of_toNat_eq
    rw [toNat_q_complete_divs hd, toNat_q_complete_div hne, hval]
  · apply BitVec.eq_of_toNat_eq
    rw [toNat_r_complete_div hne, hval, BitVec.toNat_setWidth_of_le (by decide), toNat_rs_complete_divs hd]

/-- R207: the largest quotient by a divisor of two words or more. -/
theorem toNat_q_complete_div_le {s : State} (hb : 2 ≤ sigWidth s.lb) :
    (complete s (effectOf .div s)).q.toNat ≤ 2 ^ 448 - 1 := by
  have hm := sigWidth_le s.la
  have hne := ne_zero_of_sigWidth_pos (show 0 < sigWidth s.lb by omega)
  rw [toNat_q_complete_div hne]
  exact Nat.le_sub_one_of_lt ((div_lt_of_sigWidth s.la hne).trans_le (Nat.pow_le_pow_right (by decide) (by omega)))

/-- Settles O22: the exact divisions, the powers of two, the agreement with DIVS, the zero divisors, and the largest
quotients. -/
theorem divCornerCases : Obligations.DivCornerCases := by
  intro s
  have hone (hb : s.lb = 1) :
      (complete s (effectOf .div s)).q = s.la ∧ (complete s (effectOf .div s)).r = 0 :=
    div_exact (by rw [hb]; decide) (by rw [hb]; exact (Nat.mul_one _).symm)
  refine ⟨_, exec_eq_complete .div s, fun hb ha => div_exact hb ?_, hone, fun hb ha => div_exact hb ?_,
    fun k hk hb hn => ⟨_, exec_eq_complete .shr s, ?_, (div_two_pow hb).2⟩,
    fun k hk hb hn => ⟨_, _, exec_eq_complete .shl s, exec_eq_complete .shr _, ?_⟩,
    fun hd hb => ⟨_, exec_eq_complete .divs s, div_eq_divs hd hb⟩, fun hb => ?_,
    fun hd => ⟨_, exec_eq_complete .divs s, ?_⟩, fun ha hb => (congrArg _ (hone hb).1).trans ha, fun ha hb => ?_,
    toNat_q_complete_div_le⟩
  · rw [ha]
    exact (Nat.zero_mul _).symm
  · rw [ha]
    exact (Nat.one_mul _).symm
  · apply BitVec.eq_of_toNat_eq
    rw [toNat_q_complete_shr (by omega), hn, (div_two_pow hb).1]
  · apply BitVec.eq_of_toNat_eq
    have hsum : k + s.lshamt.toNat = 512 := by omega
    rw [(div_two_pow hb).2]
    exact toNat_shrValue_shlValue s.la hsum
  · rw [effectOf_div_of_zero hb]
    exact codeWord_divideByZero
  · rw [effectOf_divs_of_zero hd]
    exact codeWord_divideByZero
  · rw [(div_two_pow hb).1, ha]
    decide

end Sys2Proof.Machine
end

section
/-! PROOFS, 60_exceptions.md R242, R243 and R253: what the completion of an illegal word leaves, the one code that each
completion reports, and the independence of the instances. -/

namespace Sys2Proof.Machine

/-! ### The completion of a latched word -/

theorem latchedEffect_of_ok {s : State} {i : Instr} (h : decode s.lcmd = .ok i) : latchedEffect s = effectOf i s := by
  rw [latchedEffect, h]

theorem latchedEffect_of_error {s : State} {e : DecodeError} (h : decode s.lcmd = .error e) :
    latchedEffect s = illegalEffect := by
  rw [latchedEffect, h]

/-- R242: the completion of an illegal word sets RC and ILL, clears DZ, and leaves OVR as it was. -/
theorem completedWith_completeIllegal (s : State) :
    CompletedWith 0xFFFFFFFFFFFFFFFE false true s (completeIllegal s) := by
  simp [CompletedWith, completeIllegal, illegalEffect]

/-- R242: the completion of an illegal word writes no register besides RC and STATUS. -/
theorem othersKept_completeIllegal (s : State) : OthersKept [] s (completeIllegal s) := by
  have hnone (reg : Reg) : ¬ illegalEffect.Writes reg := by
    cases reg with
    | word x j => cases x <;> simp [Effect.Writes, illegalEffect]
    | _ => simp [Effect.Writes, illegalEffect]
  exact fun reg _ hrc hstatus => readReg_complete_of_not_writes (hnone reg) hrc hstatus s

/-- R242: the completion step of an illegal word. -/
theorem step_completing_illegal {s : State} {e : DecodeError} (hc : Completing s) (he : decode s.lcmd = .error e) :
    step s = .next (completeIllegal (withScript s s.script.tail)) := by
  rw [step_completing hc, latchedEffect_of_error he, completeIllegal]

/-- Settles O29: the step is the illegal word's completion, whose effect has a code and nothing else. -/
theorem illegalCommandIsReported : Obligations.IllegalCommandIsReported := by
  intro s e hc he
  refine ⟨_, step_completing_illegal hc he, completedWith_completeIllegal _, rfl, fun reg hreg hrc hstatus => ?_⟩
  rw [othersKept_completeIllegal _ reg hreg hrc hstatus, readReg_withScript]

/-! ### One code for each completion -/

/-- R192, R243: the code of DIV. -/
theorem codeWord_effectOf_div (s : State) :
    codeWord (effectOf .div s).code = if s.lb = 0 then 0xFFFFFFFFFFFFFFFF else 0 := by
  split
  case isTrue hb => rw [effectOf_div_of_zero hb, codeWord_divideByZero]
  case isFalse hb => rw [effectOf_div_of_ne_zero hb, codeWord_success]

/-- R171, R243: the code of DIVS. -/
theorem codeWord_effectOf_divs (s : State) :
    codeWord (effectOf .divs s).code = if s.lscl = 0 then 0xFFFFFFFFFFFFFFFF else 0 := by
  split
  case isTrue hd => rw [effectOf_divs_of_zero hd, codeWord_divideByZero]
  case isFalse hd => rw [effectOf_divs_of_ne_zero hd, codeWord_success]

/-- Settles O30: the completion reports the code of the latched word's effect: IllegalCommand for an illegal word, what the
divisor says for a division, success for every other command. -/
theorem everyCompletionReportsOneCode : Obligations.EveryCompletionReportsOneCode := by
  intro s hc
  refine ⟨_, step_completing hc, rfl, ?_⟩
  rw [complete_rc]
  cases hd : decode s.lcmd with
  | error e =>
    rw [latchedEffect_of_error hd]
    exact codeWord_illegalCommand
  | ok i =>
    rw [latchedEffect_of_ok hd]
    cases i with
    | div => exact codeWord_effectOf_div s
    | divs => exact codeWord_effectOf_divs s
    | shl | shr | cmps | cmp | subb => exact codeWord_success

/-! ### The platform -/

/-- R253: what a platform step that answers a next platform has done. -/
theorem platformStep_cases {p p' : List State} {k : Nat} (h : platformStep p k = .next p') :
    (p[k]? = none ∧ p' = p) ∨ ∃ s t, p[k]? = some s ∧ step s = .next t ∧ p' = p.set k t := by
  unfold platformStep at h
  cases hk : p[k]? with
  | none =>
    rw [hk] at h
    cases h
    exact .inl ⟨rfl, rfl⟩
  | some s =>
    cases hs : step s with
    | next t =>
      simp only [hk, hs, Host.Outcome.next.injEq] at h
      exact .inr ⟨s, t, rfl, hs, h.symm⟩
    | fault f => simp [hk, hs] at h
    | refused r => simp [hk, hs] at h

/-- Settles O52: a platform step puts the instance's next state in the instance's own place, or does nothing. -/
theorem instancesAreIndependent : Obligations.InstancesAreIndependent := by
  intro p p' k h
  obtain ⟨hk, rfl⟩ | ⟨s, t, hk, hstep, rfl⟩ := platformStep_cases h
  · exact ⟨rfl, fun _ _ => rfl, fun s hs => by cases hk.symm.trans hs⟩
  · refine ⟨List.length_set, fun j hj => List.getElem?_set_ne hj.symm, fun s' hs' => ?_⟩
    obtain rfl : s = s' := Option.some.inj (hk.symm.trans hs')
    exact ⟨t, hstep, List.getElem?_set_self (List.getElem?_eq_some_iff.mp hk).1⟩

end Sys2Proof.Machine
end

section
/-! PROOFS, 70_reset_and_hazards.md R270 to R272 and R278: what reset leaves in the window, and a host write to an operand
register before the completion or after it. -/

namespace Sys2Proof.Machine

/-! ### Reset -/

/-- R271: after reset every register of the window reads 0. -/
theorem readReg_reset (reg : Reg) : readReg State.reset reg = 0 := by
  cases reg with
  | word x i => cases x <;> exact BitVec.extractLsb'_zero
  | _ => rfl

/-- R270: the reset input leaves in the window what the reset state has there, whatever was there before. -/
theorem readReg_resetBlock (s : State) (reg : Reg) : readReg (resetBlock s) reg = readReg State.reset reg := by
  cases reg with
  | word x i => cases x <;> rfl
  | _ => rfl

/-- R64: an offset of the window reads as a register or as 0, so it reads 0 where every register does. -/
theorem windowWord_eq_zero {s : State} (h : ∀ reg, readReg s reg = 0) (off : Nat) : windowWord s off = 0 := by
  cases hreg : regAt off with
  | none => rw [windowWord, hreg]
  | some reg => rw [windowWord, hreg]; exact h reg

/-- R270, R272: the step of the reset input. -/
theorem step_reset {s : State} {rest : List Event} (hs : s.script = .reset :: rest) :
    step s = .next (resetBlock (withScript s rest)) := by
  rw [step_event hs, perform]

/-- Settles O40: the step puts the block in the reset state, and only takes its own event off those to come. -/
theorem resetClearsTheBlock : Obligations.ResetClearsTheBlock :=
  fun _ _ hs => ⟨_, step_reset hs, fun reg => (readReg_resetBlock _ reg).trans (readReg_reset reg), rfl, rfl, rfl⟩

/-- Settles O41: every register reads 0 in the reset state, and so does every offset. -/
theorem resetStateReadsZero : Obligations.ResetStateReadsZero :=
  ⟨windowWord_eq_zero readReg_reset, rfl⟩

/-! ### Operand writes during a command -/

/-- R67: the sequencer's step while a command is in progress, the events to come written apart. -/
theorem step_sequencer_withScript {s : State} (hp : s.phase = .busy) (rest : List Event) :
    step (withScript s (.sequencer :: rest)) = .next (withScript (complete s (latchedEffect s)) rest) :=
  step_sequencer (s := withScript s (.sequencer :: rest)) hp rfl

/-- R278: a completion writes no operand register and reads none, so it commutes with a write to one. -/
theorem complete_writeReg {reg : Reg} (h : reg ∈ operandRegs) (s : State) (v : Word) (e : Effect) :
    complete (writeReg s reg v) e = writeReg (complete s e) reg v := by
  obtain rfl | rfl | ⟨i, rfl⟩ | ⟨i, rfl⟩ := mem_operandRegs.mp h <;> rfl

/-- A run of two steps. -/
theorem core_run_two {s t u : State} (h₁ : step s = .next t) (h₂ : step t = .next u) : core.run 2 s = .next u :=
  (core_run_succ 1 h₁).trans (core_run_succ 0 h₂)

/-- Settles O51: the write keeps the latches, so the completion applies the same effect before it as after it, and to other
registers than the one written. -/
theorem operandWritesDuringCommandAreSafe : Obligations.OperandWritesDuringCommandAreSafe := by
  intro s reg v rest hp hreg
  obtain ⟨hphase, hlatches⟩ := phase_latches_writeReg hreg s v
  have hwrite (u : State) (evs : List Event) :
      step (withScript u (.host (.write (regOff reg) 8 v) :: evs)) = .next (withScript (writeReg u reg v) evs) :=
    step_stmt u (.wr reg v) evs
  have hlate : step (withScript (writeReg s reg v) (.sequencer :: rest)) =
      .next (withScript (writeReg (complete s (latchedEffect s)) reg v) rest) := by
    rw [step_sequencer_withScript (hphase.trans hp), hlatches.latchedEffect_eq, complete_writeReg hreg]
  refine ⟨_, core_run_two (hwrite s _) hlate, core_run_two (step_sequencer_withScript hp _) (hwrite _ rest), ?_, ?_⟩
  · exact (phase_latches_writeReg hreg (complete s (latchedEffect s)) v).1
  · rw [readReg_withScript, readReg_writeReg hreg, if_pos rfl]

end Sys2Proof.Machine
end

section
/-! PROOFS, 30_encoding.md R92 and R93: the words of the command table, and the words that each of R93's conditions
refuses. -/

namespace Sys2Proof

/-- R93, R94: a 1 in RSV is refused first, whatever OP and BIN say. -/
theorem decode_eq_reservedBits {c : Word} (hrsv : fieldRsv c ≠ 0) : decode c = .error .reservedBits := by
  rw [decode, if_pos hrsv]

/-- R93, R94: with RSV clear, BIN = 1 is refused for every OP but SUBB's, defined or not. -/
theorem decode_eq_binOutsideSubb {c : Word} (hrsv : fieldRsv c = 0) (hbin : fieldBin c = 1) (hop : fieldOp c ≠ 0x07) :
    decode c = .error .binOutsideSubb := by
  rw [decode, if_neg (not_not_intro hrsv), if_pos ⟨hbin, hop⟩]

/-- R92, R94: an OP value outside the table selects no command. -/
theorem decodeOp_eq_undefinedOp {op : Nat} (hop : op = 0 ∨ 8 ≤ op) (bin : BitVec 1) :
    decodeOp op bin = .error .undefinedOp := by
  match op, hop with
  | 0, _ | _ + 8, _ => rfl

/-- R93, R94: with RSV and BIN clear, an OP value outside the table is what refuses the word. -/
theorem decode_eq_undefinedOp {c : Word} (hrsv : fieldRsv c = 0) (hbin : fieldBin c = 0)
    (hop : (fieldOp c).toNat = 0 ∨ 8 ≤ (fieldOp c).toNat) : decode c = .error .undefinedOp := by
  have hpass : ¬ (fieldBin c = 1 ∧ fieldOp c ≠ 0x07) := fun ⟨hone, _⟩ => by simp [hbin] at hone
  rw [decode, if_neg (not_not_intro hrsv), if_neg hpass, decodeOp_eq_undefinedOp hop]

/-- Settles O3: the words of the table are the commands' own words, and each illegal word has the fields that its
condition of R93 rules out. -/
theorem commandWordsDecode : Obligations.CommandWordsDecode :=
  have hdecode := Machine.decode_encode
  ⟨hdecode .div, hdecode .divs, hdecode .shl, hdecode .shr, hdecode .cmps, hdecode .cmp, hdecode (.subb 0),
    hdecode (.subb 1),
    decode_eq_undefinedOp (by decide) (by decide) (by decide),
    decode_eq_undefinedOp (by decide) (by decide) (by decide),
    decode_eq_undefinedOp (by decide) (by decide) (by decide),
    decode_eq_binOutsideSubb (by decide) (by decide) (by decide),
    decode_eq_reservedBits (by decide), decode_eq_reservedBits (by decide)⟩

end Sys2Proof
end

section
/-! PROOFS, 70_reset_and_hazards.md R271: the reset state meets the invariant. -/

namespace Sys2Proof.Machine

/-- Settles O42: each part of the invariant is read off the reset state. -/
theorem invariantHoldsAtReset : Obligations.InvariantHoldsAtReset := inv_reset

end Sys2Proof.Machine
end
